-- ==== Sys2Proof/Word.lean ====
section
/-! DEFINITION. The fixed-width unsigned types of 00_scope.md R15: nibble, byte, 12-bit operand, 16-bit word. -/

namespace Sys2Proof

/-- A nibble (4 bits): a register index, a sprite height or a hex digit (00 R15, 30 R75). -/
abbrev Nibble := BitVec 4

/-- A byte, `u8` (00 R15): a general register, a timer, a byte of memory. -/
abbrev Byte := BitVec 8

/-- The 12-bit address operand `addr` (30 R73). -/
abbrev Addr := BitVec 12

/-- A 16-bit word, `u16` (00 R15): an instruction word, PC, I, a stack entry (00 R14). -/
abbrev Word := BitVec 16

/-- MEM_SIZE (00 R6): the number of bytes of memory. -/
abbrev memSize : Nat := 4096

/-- PROGRAM_BASE (00 R9): where the program is loaded and where the first fetch happens. -/
abbrev programBase : Nat := 0x200

/-- MAX_PROGRAM (00 R9): the longest program image, in bytes. -/
abbrev maxProgram : Nat := 3584

/-- FB_WIDTH (00 R8): columns of the framebuffer. -/
abbrev fbWidth : Nat := 64

/-- FB_HEIGHT (00 R8): rows of the framebuffer. -/
abbrev fbHeight : Nat := 32

/-- The size of the built-in font in bytes: NUM_GLYPHS * GLYPH_BYTES (00 R10). -/
abbrev fontSize : Nat := 80

end Sys2Proof
end

