-- ==== Sys2Proof/Config.lean ====
section
/-! DEFINITION. What an implementation fixes (the spec's parameters, 00_scope.md R11 to R13) and the free values of the step inputs. -/

namespace Sys2Proof

/-- SPRITE_EDGE_POLICY (00 R13, 41 R136): what `Dxyn` does with cells outside the 64 x 32 grid. -/
inductive EdgePolicy where
  | fault
  | clip
  | wrap
deriving DecidableEq, Repr

/-- The parameters of the block that the spec leaves open (00 R11, R12, R13). A value of this type stands in State and no step
changes it, so that a statement about every state is one about every choice of the parameters (log 4). -/
structure Config where
  /-- FONT (00 R11): the 80 bytes at 0x000 to 0x04F. -/
  font : Vector Byte 80
  /-- STACK_LIMIT (00 R12): `none` is no cap. -/
  stackLimit : Option Nat
  /-- SPRITE_EDGE_POLICY (00 R13). -/
  edge : EdgePolicy
deriving DecidableEq, Repr

/-- The default FONT (70 R283). PRESUMED: the spec takes these bytes from general knowledge, its source gives none (log 5; unsafe for
a claim that reads the font). -/
def defaultFont : Vector Byte 80 := #v[
  0xF0, 0x90, 0x90, 0x90, 0xF0,
  0x20, 0x60, 0x20, 0x20, 0x70,
  0xF0, 0x10, 0xF0, 0x80, 0xF0,
  0xF0, 0x10, 0xF0, 0x10, 0xF0,
  0x90, 0x90, 0xF0, 0x10, 0x10,
  0xF0, 0x80, 0xF0, 0x10, 0xF0,
  0xF0, 0x80, 0xF0, 0x90, 0xF0,
  0xF0, 0x10, 0x20, 0x40, 0x40,
  0xF0, 0x90, 0xF0, 0x90, 0xF0,
  0xF0, 0x90, 0xF0, 0x10, 0xF0,
  0xF0, 0x90, 0xF0, 0x90, 0x90,
  0xE0, 0x90, 0xE0, 0x90, 0xE0,
  0xF0, 0x80, 0x80, 0x80, 0xF0,
  0xE0, 0x90, 0x90, 0x90, 0xE0,
  0xF0, 0x80, 0xF0, 0x80, 0xF0,
  0xF0, 0x80, 0xF0, 0x80, 0x80]

/-- The spec's default parameters (00 R11, R12, R13). DESIGN CHOICE of the spec (D6, D13, D14; log 4). -/
def defaultConfig : Config := { font := defaultFont, stackLimit := none, edge := .fault }

/-- A FREE VALUE (45 R220, D15: "a free draw with no law between steps"): the key the host delivers to step `n` when the state
lists no input for it. Safe: nothing constrains it (log 2). -/
opaque Config.freeKey : Nat → Option Nibble

/-- A FREE VALUE (43 R184, D18: any byte, no law): the random byte of step `n` when the state lists no input for it. Safe: nothing
constrains it (log 2). -/
opaque Config.freeRnd : Nat → Byte

end Sys2Proof
end

