-- ==== Sys2Proof/Machine/State.lean ====
section
/-! DEFINITION. The architectural state (10_state.md), as plain data, its reset value, and the reasons a step can stop. -/

namespace Sys2Proof.Machine

/-- Memory (20 R50): the bytes that differ from what an unlisted address reads as (`Memory.initial`: font, then zero). Canonical form
(`Memory.wf`): addresses strictly rising, all below 4096, no byte listed that the address reads as anyway. -/
abbrev Memory := List Host.Cell

/-- The framebuffer (10 R30, 41 R130): row `r` then column `c`; `true` is on. -/
abbrev Screen := Vector (Vector Bool 64) 32

/-- The fatal kinds (60 R241 to R246). `loadTooLarge` belongs to construction and no step raises it. -/
inductive FatalKind where
  | decodeError
  | stackUnderflow
  | stackOverflow
  | memoryOutOfBounds
  | drawOutOfBounds
  | loadTooLarge
deriving DecidableEq, Repr

/-- The kind's extra value in a fatal record (60 R241 to R245). -/
inductive FatalInfo where
  /-- DecodeError, StackUnderflow: none. -/
  | none
  /-- StackOverflow: the limit `d` (60 R243). -/
  | limit (d : Nat)
  /-- MemoryOutOfBounds: the first address at or above 4096 (60 R244). -/
  | address (a : Nat)
  /-- DrawOutOfBounds: `(Vx, Vy, n)` (60 R245). -/
  | sprite (vx vy : Byte) (n : Nibble)
deriving DecidableEq, Repr

/-- The fatal record (60 R240). Its `code` is a function of the kind (`FatalKind.code`). -/
structure FatalRecord where
  kind : FatalKind
  /-- The word being dispatched. -/
  word : Word
  /-- The word of the previous completed instruction. -/
  prev : Option Word
  info : FatalInfo
deriving DecidableEq, Repr

/-- Why the core halted (10 R32, 40 R102). -/
inductive HaltReason where
  | normal
  | aborted
  | fatal (r : FatalRecord)
deriving DecidableEq, Repr

/-- The mode (10 R32). -/
inductive Mode where
  | running
  /-- The suspension of `Fx0A`: its register index and its word (45 R223). -/
  | waitKey (x : Nibble) (w : Word)
  | halted (reason : HaltReason)
deriving DecidableEq, Repr

/-- The inputs of one step (60 R260). -/
structure StepInput where
  /-- The host's escape (60 R268). -/
  abort : Bool
  /-- The hex digit the host delivers to this step, or none (60 R261). -/
  key : Option Nibble
  /-- The random source's byte for this step (60 R267). -/
  rnd : Byte
deriving DecidableEq, Repr

/-- A display event (60 R262 to R264). -/
inductive DisplayEvent where
  | clear
  /-- Column, row and the new value of a changed cell. -/
  | cell (c r : Nat) (on : Bool)
  | flush
deriving DecidableEq, Repr

/-- The state of the core: the ten items of 10 R20, then the model's own fields (parameters, ports). -/
structure State where
  /-- V0 to VF (10 R21). -/
  v : Vector Byte 16
  /-- The address register I (10 R26). -/
  i : Word
  /-- The program counter (10 R23). -/
  pc : Word
  /-- The return addresses, the top first (10 R27; log 21). -/
  stack : List Word
  /-- The delay timer (10 R28). -/
  dt : Byte
  /-- The sound timer (10 R29). -/
  st : Byte
  /-- Memory (10 R31). -/
  mem : Memory
  /-- The framebuffer (10 R30). -/
  fb : Screen
  /-- The mode (10 R32). -/
  mode : Mode
  /-- The word of the most recently completed instruction (10 R33). -/
  last : Option Word
  /-- The parameters (00 R11 to R13); no step changes them. The model's own field (log 4). -/
  cfg : Config
  /-- The inputs of the coming steps, next first (40 R101, 60 R260). The model's own field (log 1). -/
  inputs : List StepInput
  /-- How many steps have taken their input; it names the free values (log 2). The model's own field. -/
  inputNo : Nat
  /-- The display event stream emitted so far, oldest first (60 R260). The model's own field (log 9). -/
  events : List DisplayEvent
deriving DecidableEq, Repr

/-- Why a step stops without a next state. -/
inductive Fault where
  /-- Raised by `step` alone, in mode Halted: "`Halted` is final: a core in `Halted(reason)` takes no step" (40 R102). Safe: the core
  does nothing from there either (log 10). No instruction's meaning answers it: a fatal condition is a NEXT state in mode Halted. -/
  | halted
deriving DecidableEq, Repr

/-- Why an instruction has no meaning. -/
inductive Refusal where
  /-- For an instruction without a meaning, by its mnemonic. Safe. No arm of `exec` answers it: every instruction has its meaning. -/
  | notModelled (mnemonic : String)
deriving DecidableEq, Repr

/-- Every pixel off. -/
def Screen.blank : Screen := Vector.replicate 32 (Vector.replicate 64 false)

/-- The core right after reset with an empty program image (10 R24, R40 to R47; 70 R281, R282, R285). The program is loaded by
construction (`construct`, log 11). -/
def State.reset : State where
  v := Vector.replicate 16 0x00#8
  i := 0x0000
  pc := 0x0200
  stack := []
  dt := 0
  st := 0
  mem := []
  fb := Screen.blank
  mode := .running
  last := none
  cfg := defaultConfig
  inputs := []
  inputNo := 0
  events := []

end Sys2Proof.Machine
end

