-- ==== Sys2Proof/Machine/Ops.lean ====
section
/-! DEFINITION. The named operations over memory, registers, stack, screen, ports and mode, and raising a fatal condition. -/

namespace Sys2Proof.Machine

/-! ## Memory (20_memory.md) -/

/-- What an address reads as that nothing has written: the font at 0x000 to 0x04F (70 R282), else zero (70 R281; D12, log 8). -/
def Memory.initial (font : Vector Byte 80) (a : Nat) : Byte := if h : a < 80 then font[a] else 0x00

/-- The byte at an address: the listed one, else the initial one. No caller asks for an address at or above 4096 (20 R52; log 32). -/
def Memory.read (font : Vector Byte 80) : Memory → Nat → Byte
  | [], a => Memory.initial font a
  | (b, v) :: m, a => if a = b then v else Memory.read font m a

/-- A cell placed by its address in a rising list. -/
def Memory.insert (a : Nat) (v : Byte) : Memory → Memory
  | [] => [(a, v)]
  | (b, u) :: m => if a < b then (a, v) :: (b, u) :: m else (b, u) :: Memory.insert a v m

/-- A byte written (20 R53): the address's entry goes, and a new one stands unless the byte is what the address reads as unlisted. No
caller writes at or above 4096; such a write would change nothing (log 32). -/
def Memory.write (font : Vector Byte 80) (m : Memory) (a : Nat) (v : Byte) : Memory :=
  if a < memSize then
    let rest := m.filter fun c => c.1 != a
    if v = Memory.initial font a then rest else Memory.insert a v rest
  else m

/-- The canonical form of memory. -/
abbrev Memory.wf (font : Vector Byte 80) (m : Memory) : Prop :=
  m.Pairwise (fun c d => c.1 < d.1) ∧ ∀ c ∈ m, c.1 < memSize ∧ c.2 ≠ Memory.initial font c.1

/-- `MemRead(a, 1)` (20 R52). -/
def State.readByte (s : State) (a : Nat) : Byte := Memory.read s.cfg.font s.mem a

/-- `MemWrite(a, 1, v)` (20 R53). -/
def State.writeByte (s : State) (a : Nat) (v : Byte) : State := { s with mem := Memory.write s.cfg.font s.mem a v }

/-- `n` bytes read from `a` upward, one at a time (20 R58). -/
def State.readBytes (s : State) (a n : Nat) : List Byte := (List.range n).map fun k => s.readByte (a + k)

/-- Bytes written from `a` upward, one at a time in order (20 R58, R63). -/
def State.writeBytes (s : State) (a : Nat) : List Byte → State
  | [] => s
  | b :: bs => (s.writeByte a b).writeBytes (a + 1) bs

/-- The address check of 20 R54 over `a, a+1, .., a+n-1` (no wrap): the first address at or above 4096, if there is one. -/
def firstBeyond (a n : Nat) : Option Nat := if n = 0 ∨ a + n ≤ memSize then none else some (max a memSize)

/-! ## Registers (10_state.md sections 2 to 4) -/

/-- `V[x]`. -/
def State.getV (s : State) (x : Nibble) : Byte := s.v[x.toNat]'x.isLt

/-- `V[x] <- b`. No register is hardwired (10 R21). -/
def State.setV (s : State) (x : Nibble) (b : Byte) : State := { s with v := s.v.set x.toNat b x.isLt }

/-- VF written as the flag (10 R22): 1 or 0. -/
def State.setFlag (s : State) (f : Bool) : State := s.setV 0xF (if f then 0x01 else 0x00)

/-- `V[0..x]` loaded from memory at `a`, the other registers as they were (44 R205). -/
def State.loadBlock (s : State) (x : Nibble) (a : Nat) : State :=
  { s with v := Vector.ofFn fun k => if k.val ≤ x.toNat then s.readByte (a + k.val) else s.v[k] }

/-- The bytes of `V[0..x]`, V0 first (44 R204). -/
def State.blockBytes (s : State) (x : Nibble) : List Byte := s.v.toList.take (x.toNat + 1)

/-- `I <- a`. -/
def State.setI (s : State) (a : Word) : State := { s with i := a }

/-- `pc <- a`. -/
def State.setPc (s : State) (a : Word) : State := { s with pc := a }

/-- The default advance (40 R105) and, applied to the advanced PC, a skip (00 R18, 42 R158): 16-bit wrapping add of 2. -/
def State.bumpPc (s : State) : State := s.setPc (s.pc + 2)

/-- The default advance of a cycle that fetches, before dispatch (40 R105). -/
def State.advance (s : State) : State := s.bumpPc

/-- A conditional skip (42 R158): one 2-byte word passed over when the condition holds. -/
def State.skipIf (s : State) (c : Bool) : State := if c then s.bumpPc else s

/-- `push(a)` (42 R152). -/
def State.push (s : State) (a : Word) : State := { s with stack := a :: s.stack }

/-- The limit a further push would pass, if one is set and reached (00 R12, 42 R152). -/
def State.stackFull (s : State) : Option Nat :=
  match s.cfg.stackLimit with
  | some d => if d ≤ s.stack.length then some d else none
  | none => none

/-- `DT <- b`. -/
def State.setDt (s : State) (b : Byte) : State := { s with dt := b }

/-- `ST <- b`. -/
def State.setSt (s : State) (b : Byte) : State := { s with st := b }

/-! ## The screen and the display events -/

/-- `fb(c, r)` (00 R17). Callers stay on the grid; off it the answer is `false`. -/
def Screen.get (f : Screen) (c r : Nat) : Bool := if hr : r < 32 then (if hc : c < 64 then f[r][c] else false) else false

/-- `fb(c, r) <- b` (00 R17). Callers stay on the grid; off it nothing changes. -/
def Screen.put (f : Screen) (c r : Nat) (b : Bool) : Screen :=
  if hr : r < 32 then (if hc : c < 64 then f.set r (f[r].set c b hc) hr else f) else f

/-- `fb(c, r)` of a state. -/
def State.pixel (s : State) (c r : Nat) : Bool := Screen.get s.fb c r

/-- The framebuffer replaced. -/
def State.setFb (s : State) (f : Screen) : State := { s with fb := f }

/-- `emit` (00 R17): events appended to the output port. -/
def State.emit (s : State) (es : List DisplayEvent) : State := { s with events := s.events ++ es }

/-! ## Ports: the inputs of the step -/

/-- The inputs of this step (40 R101, 60 R260): the first listed, and past the end of the list no abort (log 3) and a free key and random
byte (D15, D18; log 2). -/
def State.input (s : State) : StepInput :=
  match s.inputs with
  | e :: _ => e
  | [] => { abort := false, key := Config.freeKey s.inputNo, rnd := Config.freeRnd s.inputNo }

/-- The step has taken its inputs: the next step finds fresh ones (40 R101; log 1). -/
def State.nextInput (s : State) : State := { s with inputs := s.inputs.tail, inputNo := s.inputNo + 1 }

/-! ## Mode: halting, raising, ticking, retiring -/

/-- `mode <- m`. -/
def State.setMode (s : State) (m : Mode) : State := { s with mode := m }

/-- `mode <- Halted(reason)` (40 R102). -/
def State.halt (s : State) (r : HaltReason) : State := s.setMode (.halted r)

/-- The one operation that takes a fatal condition, `raise <Kind>(info)` (60 R240): the mode becomes Halted with the record of the word
being dispatched and the previous completed word; nothing else changes, so a fatal halt is precise (60 R248). Nothing returns from it
(60 R250). -/
def State.raise (s : State) (kind : FatalKind) (w : Word) (info : FatalInfo) : State :=
  s.halt (.fatal { kind := kind, word := w, prev := s.last, info := info })

/-- A counter of the Timer Unit one tick on: it never goes below zero (46 R230). -/
def tickDown (b : Byte) : Byte := if b = 0 then 0 else b - 1

/-- The tick (46 R230). -/
def State.tick (s : State) : State := { s with dt := tickDown s.dt, st := tickDown s.st }

/-- The retire (40 R108): `last <- some(w)`. -/
def State.retire (s : State) (w : Word) : State := { s with last := some w }

/-- The end of a dispatch (40 R107 to R110): an instruction that completed leaves the mode Running and has its tick and retire; one that
suspended or raised has neither. -/
def State.finish (s : State) (w : Word) : State :=
  match s.mode with
  | .running => s.tick.retire w
  | _ => s

end Sys2Proof.Machine
end

