-- ==== Sys2Proof/Machine/Flags.lean ====
section
/-! DEFINITION. Every value VF is written with as a flag (10_state.md R22, 43_alu.md R182), on the naturals where the spec says so. -/

namespace Sys2Proof.Machine

/-- The carry of `8xy4` (43 R176): `a + b >= 256`. -/
def carryOf (a b : Byte) : Bool := decide (256 ≤ a.toNat + b.toNat)

/-- The flag of `8xy5` and, with the operands exchanged, of `8xy7` (43 R177, R179): 1 iff no borrow, `a >= b`. -/
def noBorrow (a b : Byte) : Bool := decide (b.toNat ≤ a.toNat)

/-- The flag of BOTH shifts (43 R178, R180): bit 0 of the operand before the shift, in `8xyE` too. -/
def shiftedOut (a : Byte) : Bool := a.getLsbD 0

/-- A cell's part in the collision flag (41 R135): it went from on to off. -/
def collides (old new : Bool) : Bool := old && !new

end Sys2Proof.Machine
end

