-- ==== Sys2Proof/Syntax.lean ====
section
/-! DEFINITION. The instruction set: one constructor per row of spec/opcode_table.json (30_encoding.md R77), and the four fields of a word. -/

namespace Sys2Proof

/-- The four nibbles of a word, most significant first (30 R71). -/
structure Fields where
  op : Nibble
  x : Nibble
  y : Nibble
  n : Nibble
deriving DecidableEq, Repr

/-- The 34 instructions of 30 R77, in the table's order. Every operand has its encoding's width, and every value of it is legal (30 R75),
so each term of this type is a well-formed instruction. -/
inductive Instr where
  /-- `00E0` CLS (41 R132) -/
  | cls
  /-- `00EE` RET (42 R150) -/
  | ret
  /-- `1nnn` JP addr (42 R151) -/
  | jp (addr : Addr)
  /-- `2nnn` CALL addr (42 R152) -/
  | call (addr : Addr)
  /-- `3xkk` SE Vx, kk (42 R154) -/
  | seImm (x : Nibble) (kk : Byte)
  /-- `4xkk` SNE Vx, kk (42 R155) -/
  | sneImm (x : Nibble) (kk : Byte)
  /-- `5xy0` SE Vx, Vy (42 R156) -/
  | seReg (x y : Nibble)
  /-- `6xkk` LD Vx, kk (43 R170) -/
  | ldImm (x : Nibble) (kk : Byte)
  /-- `7xkk` ADD Vx, kk (43 R171) -/
  | addImm (x : Nibble) (kk : Byte)
  /-- `8xy0` LD Vx, Vy (43 R172) -/
  | ldReg (x y : Nibble)
  /-- `8xy1` OR Vx, Vy (43 R173) -/
  | orReg (x y : Nibble)
  /-- `8xy2` AND Vx, Vy (43 R174) -/
  | andReg (x y : Nibble)
  /-- `8xy3` XOR Vx, Vy (43 R175) -/
  | xorReg (x y : Nibble)
  /-- `8xy4` ADD Vx, Vy (43 R176) -/
  | addReg (x y : Nibble)
  /-- `8xy5` SUB Vx, Vy (43 R177) -/
  | subReg (x y : Nibble)
  /-- `8xy6` SHR Vx (43 R178); `y` is encoded and not read -/
  | shr (x y : Nibble)
  /-- `8xy7` SUBN Vx, Vy (43 R179) -/
  | subnReg (x y : Nibble)
  /-- `8xyE` SHL Vx (43 R180); `y` is encoded and not read -/
  | shl (x y : Nibble)
  /-- `9xy0` SNE Vx, Vy (42 R157) -/
  | sneReg (x y : Nibble)
  /-- `Annn` LD I, addr (44 R200) -/
  | ldI (addr : Addr)
  /-- `Bnnn` JP V0, addr (42 R153) -/
  | jpV0 (addr : Addr)
  /-- `Cxkk` RND Vx, kk (43 R185) -/
  | rnd (x : Nibble) (kk : Byte)
  /-- `Dxyn` DRW Vx, Vy, n (41 R134) -/
  | drw (x y n : Nibble)
  /-- `Ex9E` SKP Vx (45 R221) -/
  | skp (x : Nibble)
  /-- `ExA1` SKNP Vx (45 R222) -/
  | sknp (x : Nibble)
  /-- `Fx07` LD Vx, DT (46 R231) -/
  | ldVxDt (x : Nibble)
  /-- `Fx0A` LD Vx, K (45 R223) -/
  | ldVxK (x : Nibble)
  /-- `Fx15` LD DT, Vx (46 R232) -/
  | ldDtVx (x : Nibble)
  /-- `Fx18` LD ST, Vx (46 R233) -/
  | ldStVx (x : Nibble)
  /-- `Fx1E` ADD I, Vx (44 R201) -/
  | addI (x : Nibble)
  /-- `Fx29` LD F, Vx (44 R202) -/
  | ldF (x : Nibble)
  /-- `Fx33` LD B, Vx (44 R203) -/
  | ldB (x : Nibble)
  /-- `Fx55` LD [I], Vx (44 R204) -/
  | stRegs (x : Nibble)
  /-- `Fx65` LD Vx, [I] (44 R205) -/
  | ldRegs (x : Nibble)
deriving DecidableEq, Repr

/-- A program image: "a raw byte stream with no header" (70 R284). -/
abbrev Image := List Byte

end Sys2Proof
end

