-- ==== Sys2Proof/Decode.lean ====
section
/-! DEFINITION. The Word Decoder, the opcode map, the decoder (total on any bytes, rejecting by name) and the encoder (30_encoding.md). -/

namespace Sys2Proof

/-! ## Fields of a word (30 R71 to R73) -/

/-- `op = w[15:12]`. -/
def opField (w : Word) : Nibble := w.extractLsb' 12 4

/-- `x = w[11:8]`. -/
def xField (w : Word) : Nibble := w.extractLsb' 8 4

/-- `y = w[7:4]`. -/
def yField (w : Word) : Nibble := w.extractLsb' 4 4

/-- `n = w[3:0]`. -/
def nField (w : Word) : Nibble := w.extractLsb' 0 4

/-- `kk = w[7:0]` (30 R72). -/
def kkField (w : Word) : Byte := w.extractLsb' 0 8

/-- `addr = w[11:0]` (30 R73). -/
def addrField (w : Word) : Addr := w.extractLsb' 0 12

/-- The Word Decoder (30 R74): a pure function with no error cases. -/
def splitWord (w : Word) : Fields := { op := opField w, x := xField w, y := yField w, n := nField w }

/-- The four nibbles reassembled: `op ++ x ++ y ++ n` (30 R74). -/
def joinFields (f : Fields) : Word := f.op ++ f.x ++ f.y ++ f.n

/-! ## The opcode map (30 R77) -/

/-- One row of the opcode map: a word `w` is the row's when `w & mask = bits`. -/
structure Row where
  bits : Word
  mask : Word
deriving DecidableEq, Repr

/-- Whether a word is a row's. -/
def Row.fits (r : Row) (w : Word) : Bool := w &&& r.mask == r.bits

/-- The row of each instruction (30 R77). -/
def rowOf : Instr → Row
  | .cls => ⟨0x00E0, 0xFFFF⟩
  | .ret => ⟨0x00EE, 0xFFFF⟩
  | .jp _ => ⟨0x1000, 0xF000⟩
  | .call _ => ⟨0x2000, 0xF000⟩
  | .seImm _ _ => ⟨0x3000, 0xF000⟩
  | .sneImm _ _ => ⟨0x4000, 0xF000⟩
  | .seReg _ _ => ⟨0x5000, 0xF00F⟩
  | .ldImm _ _ => ⟨0x6000, 0xF000⟩
  | .addImm _ _ => ⟨0x7000, 0xF000⟩
  | .ldReg _ _ => ⟨0x8000, 0xF00F⟩
  | .orReg _ _ => ⟨0x8001, 0xF00F⟩
  | .andReg _ _ => ⟨0x8002, 0xF00F⟩
  | .xorReg _ _ => ⟨0x8003, 0xF00F⟩
  | .addReg _ _ => ⟨0x8004, 0xF00F⟩
  | .subReg _ _ => ⟨0x8005, 0xF00F⟩
  | .shr _ _ => ⟨0x8006, 0xF00F⟩
  | .subnReg _ _ => ⟨0x8007, 0xF00F⟩
  | .shl _ _ => ⟨0x800E, 0xF00F⟩
  | .sneReg _ _ => ⟨0x9000, 0xF00F⟩
  | .ldI _ => ⟨0xA000, 0xF000⟩
  | .jpV0 _ => ⟨0xB000, 0xF000⟩
  | .rnd _ _ => ⟨0xC000, 0xF000⟩
  | .drw _ _ _ => ⟨0xD000, 0xF000⟩
  | .skp _ => ⟨0xE09E, 0xF0FF⟩
  | .sknp _ => ⟨0xE0A1, 0xF0FF⟩
  | .ldVxDt _ => ⟨0xF007, 0xF0FF⟩
  | .ldVxK _ => ⟨0xF00A, 0xF0FF⟩
  | .ldDtVx _ => ⟨0xF015, 0xF0FF⟩
  | .ldStVx _ => ⟨0xF018, 0xF0FF⟩
  | .addI _ => ⟨0xF01E, 0xF0FF⟩
  | .ldF _ => ⟨0xF029, 0xF0FF⟩
  | .ldB _ => ⟨0xF033, 0xF0FF⟩
  | .stRegs _ => ⟨0xF055, 0xF0FF⟩
  | .ldRegs _ => ⟨0xF065, 0xF0FF⟩

/-- The whole opcode map: the 34 rows in the table's order. -/
def opcodeMap : List Row := [
  ⟨0x00E0, 0xFFFF⟩, ⟨0x00EE, 0xFFFF⟩, ⟨0x1000, 0xF000⟩, ⟨0x2000, 0xF000⟩, ⟨0x3000, 0xF000⟩, ⟨0x4000, 0xF000⟩,
  ⟨0x5000, 0xF00F⟩, ⟨0x6000, 0xF000⟩, ⟨0x7000, 0xF000⟩, ⟨0x8000, 0xF00F⟩, ⟨0x8001, 0xF00F⟩, ⟨0x8002, 0xF00F⟩,
  ⟨0x8003, 0xF00F⟩, ⟨0x8004, 0xF00F⟩, ⟨0x8005, 0xF00F⟩, ⟨0x8006, 0xF00F⟩, ⟨0x8007, 0xF00F⟩, ⟨0x800E, 0xF00F⟩,
  ⟨0x9000, 0xF00F⟩, ⟨0xA000, 0xF000⟩, ⟨0xB000, 0xF000⟩, ⟨0xC000, 0xF000⟩, ⟨0xD000, 0xF000⟩, ⟨0xE09E, 0xF0FF⟩,
  ⟨0xE0A1, 0xF0FF⟩, ⟨0xF007, 0xF0FF⟩, ⟨0xF00A, 0xF0FF⟩, ⟨0xF015, 0xF0FF⟩, ⟨0xF018, 0xF0FF⟩, ⟨0xF01E, 0xF0FF⟩,
  ⟨0xF029, 0xF0FF⟩, ⟨0xF033, 0xF0FF⟩, ⟨0xF055, 0xF0FF⟩, ⟨0xF065, 0xF0FF⟩]

/-! ## The decoder -/

/-- Why the decoder refuses: the place of the undecoded space the word lies in (30 R78 to R82), or bytes that hold no whole word. All
but the last raise DecodeError in the dispatch step (30 R84). -/
inductive Reject where
  /-- Primary opcode 0, neither `00E0` nor `00EE` (30 R78). -/
  | opcode0
  /-- `5xyN` with N not 0 (30 R80). -/
  | nibble5
  /-- `8xyN` with N one of 8 to D, or F (30 R79). -/
  | function8
  /-- `9xyN` with N not 0 (30 R80). -/
  | nibble9
  /-- Primary opcode E with another byte than 9E or A1 (30 R81). -/
  | byteE
  /-- Primary opcode F with a byte outside the nine of the table (30 R82). -/
  | byteF
  /-- Fewer than two bytes: no word (30 R70). -/
  | truncated
deriving DecidableEq, Repr

/-- Primary opcode 0 (30 R78): whole words. -/
def decode0 (w : Word) : Except Reject Instr :=
  if w = 0x00E0 then .ok .cls else if w = 0x00EE then .ok .ret else .error .opcode0

/-- Primary opcode 8 (30 R79): the function nibble. -/
def decode8 (w : Word) : Except Reject Instr :=
  match (nField w).toNat with
  | 0x0 => .ok (.ldReg (xField w) (yField w))
  | 0x1 => .ok (.orReg (xField w) (yField w))
  | 0x2 => .ok (.andReg (xField w) (yField w))
  | 0x3 => .ok (.xorReg (xField w) (yField w))
  | 0x4 => .ok (.addReg (xField w) (yField w))
  | 0x5 => .ok (.subReg (xField w) (yField w))
  | 0x6 => .ok (.shr (xField w) (yField w))
  | 0x7 => .ok (.subnReg (xField w) (yField w))
  | 0xE => .ok (.shl (xField w) (yField w))
  | _ => .error .function8

/-- Primary opcode E (30 R81): the low byte. -/
def decodeE (w : Word) : Except Reject Instr :=
  if kkField w = 0x9E then .ok (.skp (xField w))
  else if kkField w = 0xA1 then .ok (.sknp (xField w))
  else .error .byteE

/-- Primary opcode F (30 R82): the low byte. -/
def decodeF (w : Word) : Except Reject Instr :=
  if kkField w = 0x07 then .ok (.ldVxDt (xField w))
  else if kkField w = 0x0A then .ok (.ldVxK (xField w))
  else if kkField w = 0x15 then .ok (.ldDtVx (xField w))
  else if kkField w = 0x18 then .ok (.ldStVx (xField w))
  else if kkField w = 0x1E then .ok (.addI (xField w))
  else if kkField w = 0x29 then .ok (.ldF (xField w))
  else if kkField w = 0x33 then .ok (.ldB (xField w))
  else if kkField w = 0x55 then .ok (.stRegs (xField w))
  else if kkField w = 0x65 then .ok (.ldRegs (xField w))
  else .error .byteF

/-- The decoder of one word (30 R77 to R84): the dispatch on the high nibble and, where the table compares more, on the further
fields (C4). -/
def decode (w : Word) : Except Reject Instr :=
  match (opField w).toNat with
  | 0x0 => decode0 w
  | 0x1 => .ok (.jp (addrField w))
  | 0x2 => .ok (.call (addrField w))
  | 0x3 => .ok (.seImm (xField w) (kkField w))
  | 0x4 => .ok (.sneImm (xField w) (kkField w))
  | 0x5 => if nField w = 0 then .ok (.seReg (xField w) (yField w)) else .error .nibble5
  | 0x6 => .ok (.ldImm (xField w) (kkField w))
  | 0x7 => .ok (.addImm (xField w) (kkField w))
  | 0x8 => decode8 w
  | 0x9 => if nField w = 0 then .ok (.sneReg (xField w) (yField w)) else .error .nibble9
  | 0xA => .ok (.ldI (addrField w))
  | 0xB => .ok (.jpV0 (addrField w))
  | 0xC => .ok (.rnd (xField w) (kkField w))
  | 0xD => .ok (.drw (xField w) (yField w) (nField w))
  | 0xE => decodeE w
  | _ => decodeF w

/-- The word of two bytes, the first the high byte (20 R56). -/
def wordOfBytes (hi lo : Byte) : Word := hi ++ lo

/-- The two bytes of a word as memory stores them, high byte first (20 R56). -/
def bytesOfWord (w : Word) : List Byte := [w.extractLsb' 8 8, w.extractLsb' 0 8]

/-- The decoder on any bytes: one instruction is two bytes (30 R70), the rest is handed back. -/
def decodeBytes : List Byte → Except Reject (Instr × List Byte)
  | hi :: lo :: rest =>
    match decode (wordOfBytes hi lo) with
    | .ok i => .ok (i, rest)
    | .error r => .error r
  | _ => .error .truncated

/-! ## The encoder -/

/-- The word of a well-formed instruction, from the formats and patterns of 30 R76 and R77. -/
def encode : Instr → Word
  | .cls => 0x00E0
  | .ret => 0x00EE
  | .jp addr => 0x1#4 ++ addr
  | .call addr => 0x2#4 ++ addr
  | .seImm x kk => 0x3#4 ++ x ++ kk
  | .sneImm x kk => 0x4#4 ++ x ++ kk
  | .seReg x y => 0x5#4 ++ x ++ y ++ 0x0#4
  | .ldImm x kk => 0x6#4 ++ x ++ kk
  | .addImm x kk => 0x7#4 ++ x ++ kk
  | .ldReg x y => 0x8#4 ++ x ++ y ++ 0x0#4
  | .orReg x y => 0x8#4 ++ x ++ y ++ 0x1#4
  | .andReg x y => 0x8#4 ++ x ++ y ++ 0x2#4
  | .xorReg x y => 0x8#4 ++ x ++ y ++ 0x3#4
  | .addReg x y => 0x8#4 ++ x ++ y ++ 0x4#4
  | .subReg x y => 0x8#4 ++ x ++ y ++ 0x5#4
  | .shr x y => 0x8#4 ++ x ++ y ++ 0x6#4
  | .subnReg x y => 0x8#4 ++ x ++ y ++ 0x7#4
  | .shl x y => 0x8#4 ++ x ++ y ++ 0xE#4
  | .sneReg x y => 0x9#4 ++ x ++ y ++ 0x0#4
  | .ldI addr => 0xA#4 ++ addr
  | .jpV0 addr => 0xB#4 ++ addr
  | .rnd x kk => 0xC#4 ++ x ++ kk
  | .drw x y n => 0xD#4 ++ x ++ y ++ n
  | .skp x => 0xE#4 ++ x ++ 0x9E#8
  | .sknp x => 0xE#4 ++ x ++ 0xA1#8
  | .ldVxDt x => 0xF#4 ++ x ++ 0x07#8
  | .ldVxK x => 0xF#4 ++ x ++ 0x0A#8
  | .ldDtVx x => 0xF#4 ++ x ++ 0x15#8
  | .ldStVx x => 0xF#4 ++ x ++ 0x18#8
  | .addI x => 0xF#4 ++ x ++ 0x1E#8
  | .ldF x => 0xF#4 ++ x ++ 0x29#8
  | .ldB x => 0xF#4 ++ x ++ 0x33#8
  | .stRegs x => 0xF#4 ++ x ++ 0x55#8
  | .ldRegs x => 0xF#4 ++ x ++ 0x65#8

/-- The instruction the decoder reads from bits `w` numbered as spec/opcode_table.json numbers them. One instruction is one 16-bit
word (30 R70), so bit 0 of the table is bit 0 of the word; the word is laid out as memory stores it and given to the decoder. A row of
more than 16 bits names no instruction of this hardware (log 35). -/
def decodeTableWord (nbits w : Nat) : Option Instr :=
  if nbits ≤ 16 then
    match decodeBytes (bytesOfWord (BitVec.ofNat 16 (w % 2 ^ nbits))) with
    | .ok (i, _) => some i
    | .error _ => none
  else none

end Sys2Proof
end

