-- ==== Sys2Proof/Machine/Operands.lean ====
section
/-! DEFINITION. Operand forms: the fetched word, zero extension, the address operand, the glyph address, decimal digits, sprite bits and the targets of a sprite. -/

namespace Sys2Proof.Machine

/-- `zext_16(addr)` (30 R73). -/
def zextAddr (addr : Addr) : Word := addr.setWidth 16

/-- `zext_16(b)` of a register byte (42 R153, 44 R201). -/
def zextByte (b : Byte) : Word := b.setWidth 16

/-- `zext_8(k)` of a hex digit (45 R221). -/
def zextKey (k : Nibble) : Byte := k.setWidth 8

/-- The fetch (40 R104): none when `PC + 2 > 4096`, else the word of the two bytes at PC, big-endian (20 R56). -/
def State.fetchWord (s : State) : Option Word :=
  if s.pc.toNat + 2 > memSize then none
  else some (wordOfBytes (s.readByte s.pc.toNat) (s.readByte (s.pc.toNat + 1)))

/-- The address of the glyph of a digit (44 R202): FONT_BASE + digit * GLYPH_BYTES on the full byte (D9, log 20). -/
def glyphAddr (b : Byte) : Word := zextByte b * 5

/-- The three decimal digits of a byte: hundreds, tens, ones (44 R203). -/
def bcdDigits (b : Byte) : List Byte := [b / 100, b / 10 % 10, b % 10]

/-- The Bit Sequencer, most-significant bit first (41 R131). -/
def bitsMsb (b : Byte) : List Bool := (List.range 8).map fun k => b.getLsbD (7 - k)

/-- The Bit Sequencer, least-significant bit first (41 R131). -/
def bitsLsb (b : Byte) : List Bool := (List.range 8).map fun k => b.getLsbD k

/-- The sprite bit of row byte `b` at offset `k` from the left (41 R131): `(b >> (7 - k)) & 1`. -/
def spriteBit (b : Byte) (k : Nat) : Bool := b.getLsbD (7 - k)

/-- The target cell of a sprite bit under each edge policy, if it is present (41 R136). -/
def spriteTarget (p : EdgePolicy) (c r : Nat) : Option (Nat × Nat) :=
  match p with
  | .fault => some (c, r)
  | .clip => if c < fbWidth ∧ r < fbHeight then some (c, r) else none
  | .wrap => some (c % fbWidth, r % fbHeight)

/-- `edge_check` (41 R136): whether a draw of `n` rows at `(cx, cy)` raises DrawOutOfBounds. The full 8 x n rectangle counts (D6, log 17). -/
def edgeViolation (p : EdgePolicy) (cx cy n : Nat) : Bool :=
  match p with
  | .fault => decide (0 < n ∧ (fbWidth < cx + 8 ∨ fbHeight < cy + n))
  | .clip => false
  | .wrap => false

end Sys2Proof.Machine
end

