-- ==== Sys2Proof/Machine/Alu.lean ====
section
/-! DEFINITION. The register and arithmetic family: 6xkk, 7xkk, 8xy0 to 8xyE, Cxkk (43_alu.md). -/

namespace Sys2Proof.Machine

/-- A result written to Vx and then a flag to VF (43 R181; D7, log 18): where `x` is 15 the flag stays. -/
def State.setResultThenFlag (s : State) (x : Nibble) (r : Byte) (f : Bool) : State := (s.setV x r).setFlag f

/-- A flag written to VF and then a result to Vx (43 R181; D7, log 18): where `x` is 15 the result stays. -/
def State.setFlagThenResult (s : State) (x : Nibble) (r : Byte) (f : Bool) : State := (s.setFlag f).setV x r

/-- `6xkk` LD Vx, kk (43 R170). -/
def execLdImm (x : Nibble) (kk : Byte) (s : State) : Host.Outcome State Fault Refusal := .next (s.setV x kk)

/-- `7xkk` ADD Vx, kk (43 R171): wraps, no flag. -/
def execAddImm (x : Nibble) (kk : Byte) (s : State) : Host.Outcome State Fault Refusal := .next (s.setV x (s.getV x + kk))

/-- `8xy0` LD Vx, Vy (43 R172). -/
def execLdReg (x y : Nibble) (s : State) : Host.Outcome State Fault Refusal := .next (s.setV x (s.getV y))

/-- `8xy1` OR Vx, Vy (43 R173): no flag (R183). -/
def execOrReg (x y : Nibble) (s : State) : Host.Outcome State Fault Refusal := .next (s.setV x (s.getV x ||| s.getV y))

/-- `8xy2` AND Vx, Vy (43 R174): no flag (R183). -/
def execAndReg (x y : Nibble) (s : State) : Host.Outcome State Fault Refusal := .next (s.setV x (s.getV x &&& s.getV y))

/-- `8xy3` XOR Vx, Vy (43 R175): no flag (R183). -/
def execXorReg (x y : Nibble) (s : State) : Host.Outcome State Fault Refusal := .next (s.setV x (s.getV x ^^^ s.getV y))

/-- `8xy4` ADD Vx, Vy (43 R176). -/
def execAddReg (x y : Nibble) (s : State) : Host.Outcome State Fault Refusal :=
  .next (s.setResultThenFlag x (s.getV x + s.getV y) (carryOf (s.getV x) (s.getV y)))

/-- `8xy5` SUB Vx, Vy (43 R177). -/
def execSubReg (x y : Nibble) (s : State) : Host.Outcome State Fault Refusal :=
  .next (s.setResultThenFlag x (s.getV x - s.getV y) (noBorrow (s.getV x) (s.getV y)))

/-- `8xy6` SHR Vx (43 R178): the source is Vx; `y` is not read. -/
def execShr (x _y : Nibble) (s : State) : Host.Outcome State Fault Refusal :=
  .next (s.setFlagThenResult x (s.getV x >>> 1) (shiftedOut (s.getV x)))

/-- `8xy7` SUBN Vx, Vy (43 R179). -/
def execSubnReg (x y : Nibble) (s : State) : Host.Outcome State Fault Refusal :=
  .next (s.setResultThenFlag x (s.getV y - s.getV x) (noBorrow (s.getV y) (s.getV x)))

/-- `8xyE` SHL Vx (43 R180): the flag is bit 0, not bit 7; `y` is not read. -/
def execShl (x _y : Nibble) (s : State) : Host.Outcome State Fault Refusal :=
  .next (s.setFlagThenResult x (s.getV x <<< 1) (shiftedOut (s.getV x)))

/-- `Cxkk` RND Vx, kk (43 R185): the step's random byte masked. -/
def execRnd (x : Nibble) (kk : Byte) (s : State) : Host.Outcome State Fault Refusal := .next (s.setV x (s.input.rnd &&& kk))

end Sys2Proof.Machine
end

