-- ==== Sys2Proof/Machine/ControlFlow.lean ====
section
/-! DEFINITION. The control-flow family: 00EE, 1nnn, 2nnn, Bnnn, 3xkk, 4xkk, 5xy0, 9xy0 (42_control_flow.md). On entry PC is already advanced. -/

namespace Sys2Proof.Machine

/-- `00EE` RET (42 R150): pop into PC; StackUnderflow on an empty stack. -/
def execRet (s : State) : Host.Outcome State Fault Refusal :=
  match s.stack with
  | [] => .next (s.raise .stackUnderflow (encode .ret) .none)
  | a :: rest => .next (({ s with stack := rest } : State).setPc a)

/-- `1nnn` JP addr (42 R151). -/
def execJp (addr : Addr) (s : State) : Host.Outcome State Fault Refusal := .next (s.setPc (zextAddr addr))

/-- `2nnn` CALL addr (42 R152): push the advanced PC and jump; StackOverflow only where STACK_LIMIT is set and reached (D14). -/
def execCall (addr : Addr) (s : State) : Host.Outcome State Fault Refusal :=
  match s.stackFull with
  | some d => .next (s.raise .stackOverflow (encode (.call addr)) (.limit d))
  | none => .next ((s.push s.pc).setPc (zextAddr addr))

/-- `Bnnn` JP V0, addr (42 R153): a 16-bit wrapping add of V0, whatever the `x` nibble. -/
def execJpV0 (addr : Addr) (s : State) : Host.Outcome State Fault Refusal :=
  .next (s.setPc (zextAddr addr + zextByte (s.getV 0x0)))

/-- `3xkk` SE Vx, kk (42 R154). -/
def execSeImm (x : Nibble) (kk : Byte) (s : State) : Host.Outcome State Fault Refusal := .next (s.skipIf (s.getV x == kk))

/-- `4xkk` SNE Vx, kk (42 R155). -/
def execSneImm (x : Nibble) (kk : Byte) (s : State) : Host.Outcome State Fault Refusal := .next (s.skipIf (s.getV x != kk))

/-- `5xy0` SE Vx, Vy (42 R156). -/
def execSeReg (x y : Nibble) (s : State) : Host.Outcome State Fault Refusal := .next (s.skipIf (s.getV x == s.getV y))

/-- `9xy0` SNE Vx, Vy (42 R157). -/
def execSneReg (x y : Nibble) (s : State) : Host.Outcome State Fault Refusal := .next (s.skipIf (s.getV x != s.getV y))

end Sys2Proof.Machine
end

