-- ==== Sys2Proof/Machine/Display.lean ====
section
/-! DEFINITION. The display family: 00E0 and Dxyn (41_display.md). -/

namespace Sys2Proof.Machine

/-- What a blit carries from cell to cell (41 R134): the screen, `collision`, and the reports of the changed cells in loop order. -/
structure Blit where
  screen : Screen
  collision : Bool
  changed : List DisplayEvent
deriving DecidableEq, Repr

/-- One sprite bit XORed onto its target (41 R134): an absent target is neither read, written, counted nor reported (R136); a changed cell
is reported with its new value (R137). -/
def plotBit (p : EdgePolicy) (c r : Nat) (bit : Bool) (bl : Blit) : Blit :=
  match spriteTarget p c r with
  | none => bl
  | some t =>
    let old := Screen.get bl.screen t.1 t.2
    let new := old ^^ bit
    { screen := Screen.put bl.screen t.1 t.2 new
      collision := bl.collision || collides old new
      changed := if new = old then bl.changed else bl.changed ++ [.cell t.1 t.2 new] }

/-- The bits of one row, left to right from column `c` (41 R130). -/
def plotRow (p : EdgePolicy) (c r : Nat) : List Bool → Blit → Blit
  | [], bl => bl
  | bit :: bits, bl => plotRow p (c + 1) r bits (plotBit p c r bit bl)

/-- The rows of a sprite, top to bottom from row `r` (41 R130). -/
def plotRows (p : EdgePolicy) (c r : Nat) : List Byte → Blit → Blit
  | [], bl => bl
  | row :: rows, bl => plotRows p c (r + 1) rows (plotRow p c r (bitsMsb row) bl)

/-- The blit of a whole sprite onto a screen. -/
def blitSprite (p : EdgePolicy) (cx cy : Nat) (rows : List Byte) (f : Screen) : Blit :=
  plotRows p cx cy rows { screen := f, collision := false, changed := [] }

/-- The events of a draw (41 R137; D23, log 28): the changed cells, then one flush if there is any. -/
def drawEvents (changed : List DisplayEvent) : List DisplayEvent := if changed = [] then [] else changed ++ [.flush]

/-- A draw that raises nothing (41 R134): the blit, VF as the collision flag, the events. -/
def State.draw (s : State) (cx cy : Nat) (rows : List Byte) : State :=
  let bl := blitSprite s.cfg.edge cx cy rows s.fb
  ((s.setFb bl.screen).setFlag bl.collision).emit (drawEvents bl.changed)

/-- `00E0` CLS (41 R132): clear the framebuffer; one DisplayClear, no flush (D23). -/
def execCls (s : State) : Host.Outcome State Fault Refusal := .next ((s.setFb Screen.blank).emit [.clear])

/-- `Dxyn` DRW (41 R134): memory check (R133), then edge check (R136), then the draw from `mem[I .. I+n-1]` at `(Vx, Vy)`. -/
def execDrw (x y n : Nibble) (s : State) : Host.Outcome State Fault Refusal :=
  match firstBeyond s.i.toNat n.toNat with
  | some a => .next (s.raise .memoryOutOfBounds (encode (.drw x y n)) (.address a))
  | none =>
    if edgeViolation s.cfg.edge (s.getV x).toNat (s.getV y).toNat n.toNat then
      .next (s.raise .drawOutOfBounds (encode (.drw x y n)) (.sprite (s.getV x) (s.getV y) n))
    else
      .next (s.draw (s.getV x).toNat (s.getV y).toNat (s.readBytes s.i.toNat n.toNat))

end Sys2Proof.Machine
end

