-- ==== Sys2Proof/Machine/IndexMemory.lean ====
section
/-! DEFINITION. The address-register and memory family: Annn, Fx1E, Fx29, Fx33, Fx55, Fx65 (44_index_memory.md). -/

namespace Sys2Proof.Machine

/-- `Annn` LD I, addr (44 R200). -/
def execLdI (addr : Addr) (s : State) : Host.Outcome State Fault Refusal := .next (s.setI (zextAddr addr))

/-- `Fx1E` ADD I, Vx (44 R201): 16-bit wrapping add, no flag. -/
def execAddI (x : Nibble) (s : State) : Host.Outcome State Fault Refusal := .next (s.setI (s.i + zextByte (s.getV x)))

/-- `Fx29` LD F, Vx (44 R202). -/
def execLdF (x : Nibble) (s : State) : Host.Outcome State Fault Refusal := .next (s.setI (glyphAddr (s.getV x)))

/-- `Fx33` LD B, Vx (44 R203): three digits at I; the range is checked first (20 R54) and I stays (R206). -/
def execLdB (x : Nibble) (s : State) : Host.Outcome State Fault Refusal :=
  match firstBeyond s.i.toNat 3 with
  | some a => .next (s.raise .memoryOutOfBounds (encode (.ldB x)) (.address a))
  | none => .next (s.writeBytes s.i.toNat (bcdDigits (s.getV x)))

/-- `Fx55` LD [I], Vx (44 R204): V0 to Vx stored at I; the range is checked first (20 R54) and I stays (R206). -/
def execStRegs (x : Nibble) (s : State) : Host.Outcome State Fault Refusal :=
  match firstBeyond s.i.toNat (x.toNat + 1) with
  | some a => .next (s.raise .memoryOutOfBounds (encode (.stRegs x)) (.address a))
  | none => .next (s.writeBytes s.i.toNat (s.blockBytes x))

/-- `Fx65` LD Vx, [I] (44 R205): V0 to Vx loaded from I; the range is checked first (20 R54) and I stays (R206). -/
def execLdRegs (x : Nibble) (s : State) : Host.Outcome State Fault Refusal :=
  match firstBeyond s.i.toNat (x.toNat + 1) with
  | some a => .next (s.raise .memoryOutOfBounds (encode (.ldRegs x)) (.address a))
  | none => .next (s.loadBlock x s.i.toNat)

end Sys2Proof.Machine
end

