-- ==== Sys2Proof/Machine/Keypad.lean ====
section
/-! DEFINITION. The keypad family: Ex9E, ExA1, Fx0A and its wait step (45_keypad.md). -/

namespace Sys2Proof.Machine

/-- Whether the step's key is there and equals `b` (45 R221). -/
def State.keyIs (s : State) (b : Byte) : Bool :=
  match s.input.key with
  | some k => b == zextKey k
  | none => false

/-- Whether the step's key is there and differs from `b` (45 R222). -/
def State.keyIsNot (s : State) (b : Byte) : Bool :=
  match s.input.key with
  | some k => b != zextKey k
  | none => false

/-- `Ex9E` SKP Vx (45 R221): no skip when no key is there. -/
def execSkp (x : Nibble) (s : State) : Host.Outcome State Fault Refusal := .next (s.skipIf (s.keyIs (s.getV x)))

/-- `ExA1` SKNP Vx (45 R222): no skip when no key is there. -/
def execSknp (x : Nibble) (s : State) : Host.Outcome State Fault Refusal := .next (s.skipIf (s.keyIsNot (s.getV x)))

/-- `Fx0A` LD Vx, K (45 R223): suspend. The key of the dispatch step is not consumed by the wait (D26, log 23). -/
def execLdVxK (x : Nibble) (s : State) : Host.Outcome State Fault Refusal :=
  .next (s.setMode (.waitKey x (encode (.ldVxK x))))

/-- The completion of a wait by a key (45 R224; D16, log 23): Vx, mode, one tick, retire. -/
def State.takeKey (s : State) (x : Nibble) (w : Word) (k : Nibble) : State :=
  (((s.setV x (zextKey k)).setMode .running).tick).retire w

/-- The wait step (45 R224): abort before key (60 R249); no key, no change (R225). -/
def State.waitStep (s : State) (x : Nibble) (w : Word) : State :=
  if s.input.abort then s.halt .aborted
  else match s.input.key with
    | none => s
    | some k => s.takeKey x w k

end Sys2Proof.Machine
end

