-- ==== Sys2Proof/Machine/Timers.lean ====
section
/-! DEFINITION. The timer family: Fx07, Fx15, Fx18 (46_timers.md). The tick is `State.tick`, after the instruction's own writes (40 R107). -/

namespace Sys2Proof.Machine

/-- `Fx07` LD Vx, DT (46 R231): the value before this cycle's tick. -/
def execLdVxDt (x : Nibble) (s : State) : Host.Outcome State Fault Refusal := .next (s.setV x s.dt)

/-- `Fx15` LD DT, Vx (46 R232). -/
def execLdDtVx (x : Nibble) (s : State) : Host.Outcome State Fault Refusal := .next (s.setDt (s.getV x))

/-- `Fx18` LD ST, Vx (46 R233). -/
def execLdStVx (x : Nibble) (s : State) : Host.Outcome State Fault Refusal := .next (s.setSt (s.getV x))

end Sys2Proof.Machine
end

