-- ==== Sys2Proof/Machine/Cycle.lean ====
section
/-! DEFINITION. The instruction cycle of mode Running (40_dispatch_cycle.md R103 to R111). -/

namespace Sys2Proof.Machine

/-- A fetched word run (40 R105 to R110): default advance, decode, DecodeError or the instruction, then the end of the dispatch. -/
def runWord (w : Word) (s : State) : Host.Outcome State Fault Refusal :=
  match decode w with
  | .error _ => .next (s.advance.raise .decodeError w .none)
  | .ok i =>
    match exec i s.advance with
    | .next t => .next (t.finish w)
    | .fault f => .fault f
    | .refused r => .refused r

/-- One instruction cycle in mode Running (40 R103 to R111): abort, then end of memory, then the fetched word (60 R249). -/
def cycle (s : State) : Host.Outcome State Fault Refusal :=
  if s.input.abort then .next (s.halt .aborted)
  else match s.fetchWord with
    | none => .next (s.halt .normal)
    | some w => runWord w s

end Sys2Proof.Machine
end

