-- ==== Sys2Proof/Machine/Step.lean ====
section
/-! DEFINITION. One step of the core (40_dispatch_cycle.md R111, 45_keypad.md R224), and an instruction placed where the next step fetches it. -/

namespace Sys2Proof.Machine

/-- One step (40 R100, R111). In Halted there is no step (R102). Every other step takes one input (R101). -/
def step (s : State) : Host.Outcome State Fault Refusal :=
  match s.mode with
  | .halted _ => .fault .halted
  | .waitKey x w => .next (s.waitStep x w).nextInput
  | .running =>
    match cycle s with
    | .next t => .next t.nextInput
    | .fault f => .fault f
    | .refused r => .refused r

/-- The state with the instruction of bits `w` (numbered as spec/opcode_table.json numbers them) at PC, where the next step in mode
Running fetches, the high byte first. The mode is set Running, which the fetch needs. This stands for the program load of 70 R284
(log 11). -/
def State.withFetchWord (s : State) (nbits w : Nat) : State :=
  (s.writeBytes s.pc.toNat (bytesOfWord (BitVec.ofNat 16 (w % 2 ^ nbits)))).setMode .running

end Sys2Proof.Machine
end

