-- ==== Sys2Proof/Machine/Ports.lean ====
section
/-! DEFINITION. The outputs that are functions of the state: sound, status, exit code, fatal codes (60_exceptions.md R246, R247, R265, R266). -/

namespace Sys2Proof.Machine

/-- The code of a fatal kind (60 R241 to R246; the spec's own numbering, D19, log 25). -/
def FatalKind.code : FatalKind → Nat
  | .decodeError => 1
  | .stackUnderflow => 2
  | .stackOverflow => 3
  | .memoryOutOfBounds => 4
  | .drawOutOfBounds => 5
  | .loadTooLarge => 6

/-- The process exit code of a fatal kind (60 R247): "1 on any fatal error", LoadTooLarge and the spec's added kinds included. -/
def FatalKind.exitCode : FatalKind → Nat
  | .decodeError => 1
  | .stackUnderflow => 1
  | .stackOverflow => 1
  | .memoryOutOfBounds => 1
  | .drawOutOfBounds => 1
  | .loadTooLarge => 1

/-- The process exit code of a halt reason (60 R247). -/
def HaltReason.exitCode : HaltReason → Nat
  | .normal => 0
  | .aborted => 0
  | .fatal r => r.kind.exitCode

/-- What the host reads after each step (60 R266). -/
inductive Status where
  | running
  | waiting
  | halted (reason : HaltReason) (exitCode : Nat)
deriving DecidableEq, Repr

/-- The `status` output (60 R266). -/
def State.status (s : State) : Status :=
  match s.mode with
  | .running => .running
  | .waitKey _ _ => .waiting
  | .halted r => .halted r r.exitCode

/-- The `sound_on` output (46 R235, 60 R265; D22, log 27). -/
def State.soundOn (s : State) : Bool := s.st != 0

end Sys2Proof.Machine
end

