-- ==== Sys2Proof/WellFormed.lean ====
section
/-! DEFINITION. The checks on raw syntax: which four fields name an instruction (30_encoding.md R78 to R83) and which program images a core is built from (70 R284). -/

namespace Sys2Proof

/-- Whether four nibbles name an instruction, written per primary opcode as 30 R78 to R83 state it, and independently of the decoder. An
`Instr` needs no check of its own: its operands have their encodings' widths and every value is legal (30 R75). -/
def Fields.wellFormed (f : Fields) : Bool :=
  match f.op.toNat with
  | 0x0 => f.x == 0x0 && f.y == 0xE && (f.n == 0x0 || f.n == 0xE)                            -- R78
  | 0x5 => f.n == 0x0                                                                       -- R80
  | 0x8 => decide (f.n.toNat ≤ 7) || f.n == 0xE                                             -- R79
  | 0x9 => f.n == 0x0                                                                       -- R80
  | 0xE => (f.y == 0x9 && f.n == 0xE) || (f.y == 0xA && f.n == 0x1)                         -- R81
  | 0xF => (f.y == 0x0 && (f.n == 0x7 || f.n == 0xA))                                       -- R82
      || (f.y == 0x1 && (f.n == 0x5 || f.n == 0x8 || f.n == 0xE))
      || (f.y == 0x2 && f.n == 0x9) || (f.y == 0x3 && f.n == 0x3)
      || (f.y == 0x5 && f.n == 0x5) || (f.y == 0x6 && f.n == 0x5)
  | _ => true                                                                               -- R83

/-- Whether a program image fits (70 R284): at most `4096 - 0x200` bytes. -/
def Image.wellFormed (p : Image) : Bool := decide (p.length ≤ maxProgram)

end Sys2Proof
end

