-- ==== Sys2Proof/Machine/Load.lean ====
section
/-! DEFINITION. Construction of a core from a program image, and the exit code where it fails (70_reset_and_hazards.md R280 to R285, 60_exceptions.md R247). -/

namespace Sys2Proof.Machine

/-- Construction (70 R280): the length check first, LoadTooLarge and no core if it fails (R284, 60 R246); else the reset state under the
given parameters with the image at 0x200 (log 11). -/
def construct (cfg : Config) (p : Image) : Except FatalKind State :=
  if Image.wellFormed p then .ok (({ State.reset with cfg := cfg } : State).writeBytes programBase p)
  else .error .loadTooLarge

/-- The process exit code that a construction ends with (60 R247): 1 where it fails with LoadTooLarge, none where there is a core, whose own
halt reports one later (`State.status`). -/
def constructExit : Except FatalKind State → Option Nat
  | .error k => some k.exitCode
  | .ok _ => none

end Sys2Proof.Machine
end

