-- ==== Sys2Proof/Safety.lean ====
section
/-! DEFINITION. The terms claims are stated in: the parts of a state and what keeps them, when a cycle fetches an instruction, what a sprite covers, what a renderer shows, and the invariants. -/

namespace Sys2Proof.Safety

open Sys2Proof.Machine

/-! ## Frames -/

/-- The parts of a state (10 R20, and the model's own fields). -/
inductive Part where
  | regs
  | index
  | pc
  | stack
  | delay
  | sound
  | memory
  | screen
  | mode
  | last
  | config
  | inputs
  | events
deriving DecidableEq, Repr

/-- The part is the same in both states: memory byte by byte, the screen pixel by pixel. -/
def Keeps : Part → State → State → Prop
  | .regs, s, t => ∀ r, t.getV r = s.getV r
  | .index, s, t => t.i = s.i
  | .pc, s, t => t.pc = s.pc
  | .stack, s, t => t.stack = s.stack
  | .delay, s, t => t.dt = s.dt
  | .sound, s, t => t.st = s.st
  | .memory, s, t => ∀ a, t.readByte a = s.readByte a
  | .screen, s, t => ∀ c r, t.pixel c r = s.pixel c r
  | .mode, s, t => t.mode = s.mode
  | .last, s, t => t.last = s.last
  | .config, s, t => t.cfg = s.cfg
  | .inputs, s, t => t.inputs = s.inputs ∧ t.inputNo = s.inputNo
  | .events, s, t => t.events = s.events

/-- Every part but the listed ones is the same. -/
def KeepsAllBut (ps : List Part) (s t : State) : Prop := ∀ p, p ∉ ps → Keeps p s t

/-- Every general register but the listed ones is the same. -/
def KeepsRegsBut (rs : List Nibble) (s t : State) : Prop := ∀ r, r ∉ rs → t.getV r = s.getV r

/-- Every byte outside the `n` bytes from `a` upward is the same. -/
def KeepsBytesOutside (a n : Nat) (s t : State) : Prop := ∀ b, (b < a ∨ a + n ≤ b) → t.readByte b = s.readByte b

/-- The general registers an instruction may write: its destination and, for the flag writers, VF (10 R22); for Fx0A none in its
dispatch step (45 R223). -/
def destinations : Instr → List Nibble
  | .ldImm x _ | .addImm x _ | .ldReg x _ | .orReg x _ | .andReg x _ | .xorReg x _ | .rnd x _ | .ldVxDt x => [x]
  | .addReg x _ | .subReg x _ | .shr x _ | .subnReg x _ | .shl x _ => [x, 0xF]
  | .drw _ _ _ => [0xF]
  | .ldRegs x => (List.range (x.toNat + 1)).map (BitVec.ofNat 4)
  | .cls | .ret | .jp _ | .call _ | .seImm _ _ | .sneImm _ _ | .seReg _ _ | .sneReg _ _ | .ldI _ | .jpV0 _ | .skp _ | .sknp _
  | .ldVxK _ | .ldDtVx _ | .ldStVx _ | .addI _ | .ldF _ | .ldB _ | .stRegs _ => []

/-- The bytes an instruction may store to: how many from I upward (20 R55). -/
def storeWidth : Instr → Nat
  | .ldB _ => 3
  | .stRegs x => x.toNat + 1
  | .cls | .ret | .jp _ | .call _ | .seImm _ _ | .sneImm _ _ | .seReg _ _ | .ldImm _ _ | .addImm _ _ | .ldReg _ _ | .orReg _ _
  | .andReg _ _ | .xorReg _ _ | .addReg _ _ | .subReg _ _ | .shr _ _ | .subnReg _ _ | .shl _ _ | .sneReg _ _ | .ldI _ | .jpV0 _
  | .rnd _ _ | .drw _ _ _ | .skp _ | .sknp _ | .ldVxDt _ | .ldVxK _ | .ldDtVx _ | .ldStVx _ | .addI _ | .ldF _ | .ldRegs _ => 0

/-! ## Cycles -/

/-- The word at PC, big-endian (20 R56). -/
def wordAtPc (s : State) : Word := wordOfBytes (s.readByte s.pc.toNat) (s.readByte (s.pc.toNat + 1))

/-- The next step is a cycle that fetches (40 R103, R104). -/
def FetchesWord (s : State) : Prop := s.mode = .running ∧ s.input.abort = false ∧ s.pc.toNat + 2 ≤ memSize

/-- The next step is a cycle that fetches and dispatches `i`. -/
def Fetches (s : State) (i : Instr) : Prop := FetchesWord s ∧ decode (wordAtPc s) = .ok i

/-- An instruction's row and its own word (30 R76, R77): the row is in the map, the word fits it, the word's number is the row's match with the
operands in the places `operands` gives them (`x` counts 256, `y` counts 16, `n`, `kk` and `addr` count 1: 30 R71 to R73), and the word
decodes back to the instruction. -/
def EncodedAs (i : Instr) (bits mask : Word) (operands : Nat) : Prop :=
  (⟨bits, mask⟩ : Row) ∈ opcodeMap ∧ encode i &&& mask = bits ∧ (encode i).toNat = bits.toNat + operands ∧ decode (encode i) = .ok i

/-- The state is halted with a record of this kind, word and extra value, and the word completed before (60 R240). -/
def HaltedBy (kind : FatalKind) (w : Word) (info : FatalInfo) (s t : State) : Prop :=
  t.mode = .halted (.fatal { kind := kind, word := w, prev := s.last, info := info })

/-- The byte at `a` once `n` bytes, the `k`-th of them `f k`, are stored from I upward (20 R53). -/
def byteAfterStore (s : State) (n : Nat) (f : Nat → Byte) (a : Nat) : Byte :=
  if s.i.toNat ≤ a ∧ a < s.i.toNat + n then f (a - s.i.toNat) else s.readByte a

/-- The word at PC after that store, big-endian (20 R56, R66). -/
def wordAfterStore (s : State) (n : Nat) (f : Nat → Byte) : Word :=
  wordOfBytes (byteAfterStore s n f s.pc.toNat) (byteAfterStore s n f (s.pc.toNat + 1))

/-! ## Sprites and the renderer -/

/-- The cell `(c, r)` is the target of a 1 bit of the sprite of `n` rows at `I`, anchored at `(cx, cy)` (41 R134 to R136). -/
def Covers (s : State) (cx cy n c r : Nat) : Prop :=
  ∃ j b, j < n ∧ b < 8 ∧ spriteTarget s.cfg.edge (cx + b) (cy + j) = some (c, r) ∧ spriteBit (s.readByte (s.i.toNat + j)) b = true

/-- A draw raises nothing: the sprite lies in memory (41 R133) and the edge policy lets it (41 R136). -/
def DrawFits (s : State) (cx cy n : Nat) : Prop :=
  (n = 0 ∨ s.i.toNat + n ≤ memSize) ∧ (s.cfg.edge = .fault → n = 0 ∨ (cx + 8 ≤ fbWidth ∧ cy + n ≤ fbHeight))

/-- What a renderer that starts with a dark surface does with one event (60 R262 to R264). -/
def renderEvent (f : Screen) : DisplayEvent → Screen
  | .clear => Screen.blank
  | .cell c r on => Screen.put f c r on
  | .flush => f

/-- The surface a renderer shows after a stream of events. -/
def rendered (es : List DisplayEvent) : Screen := es.foldl renderEvent Screen.blank

/-! ## Invariants -/

/-- Memory is in its canonical form. -/
def MemoryForm (s : State) : Prop := Memory.wf s.cfg.font s.mem

/-- PC and the stack stay in the range of 10 R23: PC at most 0x10FE, every return address at most 0x1000; and the stack never holds more
entries than a limit that is set (00 R12). -/
def PcAndStackBounds (s : State) : Prop :=
  s.pc.toNat ≤ 0x10FE ∧ (∀ a ∈ s.stack, a.toNat ≤ 0x1000) ∧ ∀ d, s.cfg.stackLimit = some d → s.stack.length ≤ d

/-- A renderer fed the events shows the framebuffer (20 R68, 41 R137). -/
def RendererAgrees (s : State) : Prop := rendered s.events = s.fb

/-- The sound and delay timers' tick, on the naturals: down by one, not below zero (46 R230). -/
def Ticked (before after : Byte) : Prop := after.toNat = before.toNat - 1

end Sys2Proof.Safety
end

