-- ==== Sys2Proof/Certificates/Slice0/Obligations.lean ====
section
/-! DEFINITION. The statements for the provers. Where a docstring names a decision D<n> of 92_eei_decisions.md or a log entry, that clause is a choice of the spec's writer or of the model, not the source's. -/

open Sys2Proof Sys2Proof.Machine Sys2Proof.Safety

/-! ## Encoding -/

/-- At least one word of every primary opcode, written out from the table, decodes to the instruction it stands for; words outside the table
are refused by name. That `0x0000`, `0x5121` and `0x912F` are outside it is D4 (log 15). -/
def Obligations.SampleWordsDecode : Prop :=
  decode 0x00E0 = .ok .cls ∧ decode 0x00EE = .ok .ret ∧ decode 0x1FFF = .ok (.jp 0xFFF) ∧ decode 0x2300 = .ok (.call 0x300) ∧
  decode 0x3310 = .ok (.seImm 0x3 0x10) ∧ decode 0x4500 = .ok (.sneImm 0x5 0x00) ∧ decode 0x5120 = .ok (.seReg 0x1 0x2) ∧
  decode 0x6A42 = .ok (.ldImm 0xA 0x42) ∧ decode 0x7103 = .ok (.addImm 0x1 0x03) ∧ decode 0x8125 = .ok (.subReg 0x1 0x2) ∧
  decode 0x812E = .ok (.shl 0x1 0x2) ∧ decode 0x9120 = .ok (.sneReg 0x1 0x2) ∧ decode 0xA2F0 = .ok (.ldI 0x2F0) ∧
  decode 0xBFFE = .ok (.jpV0 0xFFE) ∧ decode 0xC3A5 = .ok (.rnd 0x3 0xA5) ∧ decode 0xD125 = .ok (.drw 0x1 0x2 0x5) ∧
  decode 0xE19E = .ok (.skp 0x1) ∧ decode 0xF407 = .ok (.ldVxDt 0x4) ∧ decode 0xF165 = .ok (.ldRegs 0x1) ∧
  decode 0x0000 = .error .opcode0 ∧ decode 0x5121 = .error .nibble5 ∧ decode 0x8128 = .error .function8 ∧
  decode 0x912F = .error .nibble9 ∧ decode 0xE19F = .error .byteE ∧ decode 0xF130 = .error .byteF

/-- Every instruction, with every value of every operand, is read back from its own word. -/
def Obligations.DecodeOfEncode : Prop := ∀ i : Instr, decode (encode i) = .ok i

/-- A word that decodes is the word of what it decodes to: no bit of a word is lost, the unread `y` of the shifts included. -/
def Obligations.EncodeOfDecode : Prop := ∀ (w : Word) (i : Instr), decode w = .ok i → encode i = w

/-- 30 R71 to R74: the fields of a word and their zero extension; splitting and reassembling a word are inverse to each other. -/
def Obligations.FieldsOfAWordAndBack : Prop :=
  (∀ f : Fields, splitWord (joinFields f) = f) ∧ splitWord 0xABCD = ⟨0xA, 0xB, 0xC, 0xD⟩ ∧ addrField 0xABFE = 0xBFE ∧
  ∀ w : Word, joinFields (splitWord w) = w ∧
    (opField w).toNat = w.toNat / 4096 ∧ (xField w).toNat = w.toNat / 256 % 16 ∧
    (yField w).toNat = w.toNat / 16 % 16 ∧ (nField w).toNat = w.toNat % 16 ∧
    splitWord w = ⟨opField w, xField w, yField w, nField w⟩ ∧
    (kkField w).toNat = w.toNat % 256 ∧ kkField w = yField w ++ nField w ∧
    (addrField w).toNat = w.toNat % 4096 ∧ addrField w = xField w ++ yField w ++ nField w ∧
    (zextAddr (addrField w)).toNat = (addrField w).toNat

/-- 30 R77: a word is decoded as the unique row whose match equals `w & mask`; a word that is refused fits none of the 34 rows. -/
def Obligations.DecodesAsTheUniqueRow : Prop :=
  opcodeMap.length = 34 ∧
  (∀ (w : Word) (i : Instr), decode w = .ok i →
    rowOf i ∈ opcodeMap ∧ w &&& (rowOf i).mask = (rowOf i).bits ∧ ∀ r ∈ opcodeMap, w &&& r.mask = r.bits → r = rowOf i) ∧
  (∀ (w : Word) (e : Reject), decode w = .error e → ∀ r ∈ opcodeMap, w &&& r.mask ≠ r.bits)

/-- 30 R78 to R83, with the undecoded space of D4: exactly the words whose fields are well-formed decode. -/
def Obligations.DecodesExactlyWellFormedFields : Prop :=
  ∀ w : Word, (∃ i, decode w = .ok i) ↔ (splitWord w).wellFormed = true

/-! ## The step -/

/-- 40 R104 to R110: a fetched word that decodes to `i` is run as `exec i` on the state with PC advanced, then the end of the dispatch
(`finish`: tick and retire if it completed), and the step has taken its input (`nextInput`, log 1). -/
def Obligations.StepRunsTheDecodedInstruction : Prop :=
  ∀ (s : State) (i : Instr), s.mode = .running → s.input.abort = false → s.pc.toNat + 2 ≤ memSize →
    decode (wordOfBytes (s.readByte s.pc.toNat) (s.readByte (s.pc.toNat + 1))) = .ok i →
    step s = match exec i s.advance with
      | .next t => .next (t.finish (wordOfBytes (s.readByte s.pc.toNat) (s.readByte (s.pc.toNat + 1)))).nextInput
      | .fault f => .fault f
      | .refused r => .refused r

/-- 40 R105, R107, R108 and the model's inputs: what surrounds `exec` in a step. The advance adds 2 to PC; the end of a completed dispatch
ticks both timers and records the word; a dispatch that suspended or raised ends unchanged; the step drops the head of the listed inputs. -/
def Obligations.WhatAStepAddsAroundExec : Prop :=
  ∀ (s : State) (w : Word),
    (s.advance.pc = s.pc + 2 ∧ KeepsAllBut [.pc] s s.advance) ∧
    (s.mode = .running → Ticked s.dt (s.finish w).dt ∧ Ticked s.st (s.finish w).st ∧ (s.finish w).last = some w ∧
      KeepsAllBut [.delay, .sound, .last] s (s.finish w)) ∧
    (s.mode ≠ .running → s.finish w = s) ∧
    (s.nextInput.inputs = s.inputs.tail ∧ s.nextInput.inputNo = s.inputNo + 1 ∧ KeepsAllBut [.inputs] s s.nextInput)

/-- 46 R230, 40 R107, R109, R110: a step that ends Running from Running has ticked once, after the instruction's own write of a timer; one
that ends in another mode has neither ticked nor retired. -/
def Obligations.TimersTickOncePerCompletedInstruction : Prop :=
  ∀ (s t : State), s.mode = .running → step s = .next t →
    (t.mode = .running → ∃ i, Fetches s i ∧ t.last = some (wordAtPc s) ∧
      (∀ x, i = .ldDtVx x → Ticked (s.getV x) t.dt) ∧ ((∀ x, i ≠ .ldDtVx x) → Ticked s.dt t.dt) ∧
      (∀ x, i = .ldStVx x → Ticked (s.getV x) t.st) ∧ ((∀ x, i ≠ .ldStVx x) → Ticked s.st t.st)) ∧
    (t.mode ≠ .running → t.dt = s.dt ∧ t.st = s.st ∧ t.last = s.last)

/-- 60 R241, 30 R84, 40 R105, R109; the record is D19 and `prev` D20: a fetched word that does not decode halts the core with DecodeError,
PC advanced, nothing else changed. -/
def Obligations.UndecodedWordHalts : Prop :=
  ∀ (s : State) (e : Reject), FetchesWord s → decode (wordAtPc s) = .error e →
    ∃ t, step s = .next t ∧ HaltedBy .decodeError (wordAtPc s) .none s t ∧ t.pc = s.pc + 2 ∧ KeepsAllBut [.mode, .pc, .inputs] s t

/-- 40 R104, with PC = 4095 as D2 decides: no two bytes left at PC is the normal end. -/
def Obligations.EndOfMemoryHaltsNormally : Prop :=
  ∀ s : State, s.mode = .running → s.input.abort = false → memSize < s.pc.toNat + 2 →
    ∃ t, step s = .next t ∧ t.mode = .halted .normal ∧ KeepsAllBut [.mode, .inputs] s t

/-- 40 R103, 60 R252 (D17): the host's abort ends the run at the start of a Running or waiting step, and nothing else happens. -/
def Obligations.AbortHaltsBeforeAnythingElse : Prop :=
  ∀ s : State, (s.mode = .running ∨ ∃ x w, s.mode = .waitKey x w) → s.input.abort = true →
    ∃ t, step s = .next t ∧ t.mode = .halted .aborted ∧ KeepsAllBut [.mode, .inputs] s t

/-- 40 R100, R102: there is a step from every mode but Halted, and none from Halted, which the model says by the fault `halted` (log 10). -/
def Obligations.StepsExactlyUnlessHalted : Prop :=
  ∀ s : State, ((∃ t, step s = .next t) ↔ ∀ r, s.mode ≠ .halted r) ∧ ((∃ r, s.mode = .halted r) ↔ step s = .fault .halted)

/-- 40 R106: every instruction, in every state, ends in a next state: it completes (mode kept), suspends (Fx0A only), or raises a fatal
condition. -/
def Obligations.EveryInstructionAnswersANextState : Prop :=
  ∀ (i : Instr) (s : State), ∃ t, exec i s = .next t ∧
    (t.mode = s.mode ∨ (∃ x, i = .ldVxK x ∧ t.mode = .waitKey x (encode i)) ∨
      ∃ kind info, HaltedBy kind (encode i) info s t)

/-- 60 R248, 40 R109 (the record is D19): a fatal halt is precise; of the faulting cycle only the PC advance remains. -/
def Obligations.FatalHaltIsPrecise : Prop :=
  ∀ (s t : State) (rec : FatalRecord), s.mode = .running → step s = .next t → t.mode = .halted (.fatal rec) →
    rec.word = wordAtPc s ∧ rec.prev = s.last ∧ t.pc = s.pc + 2 ∧ KeepsAllBut [.mode, .pc, .inputs] s t

/-- 60 R241 to R245 (kinds and values by D5, D6, D14, D19): which instruction raises which fatal condition, and on what. -/
def Obligations.OnlyTheNamedConditionsAreFatal : Prop :=
  ∀ (i : Instr) (s t : State) (rec : FatalRecord), s.mode = .running → exec i s = .next t → t.mode = .halted (.fatal rec) →
    (i = .ret ∧ s.stack = [] ∧ rec.kind = .stackUnderflow ∧ rec.info = .none) ∨
    (∃ addr d, i = .call addr ∧ s.cfg.stackLimit = some d ∧ d ≤ s.stack.length ∧ rec.kind = .stackOverflow ∧ rec.info = .limit d) ∨
    (∃ n a, ((∃ x y, i = .drw x y (BitVec.ofNat 4 n) ∧ n < 16) ∨ (∃ x, i = .ldB x ∧ n = 3) ∨
        (∃ x, (i = .stRegs x ∨ i = .ldRegs x) ∧ n = x.toNat + 1)) ∧
      memSize < s.i.toNat + n ∧ 0 < n ∧ a = max s.i.toNat memSize ∧ rec.kind = .memoryOutOfBounds ∧ rec.info = .address a) ∨
    (∃ x y n, i = .drw x y n ∧ s.cfg.edge = .fault ∧ 0 < n.toNat ∧
      (fbWidth < (s.getV x).toNat + 8 ∨ fbHeight < (s.getV y).toNat + n.toNat) ∧
      rec.kind = .drawOutOfBounds ∧ rec.info = .sprite (s.getV x) (s.getV y) n)

/-! ## Footprints: what an instruction leaves unchanged, over the whole set -/

/-- 10 R21, R22: a general register changes only where it is an instruction's destination or the flag of a flag writer. -/
def Obligations.OnlyDestinationRegistersChange : Prop :=
  ∀ (i : Instr) (s t : State), exec i s = .next t → KeepsRegsBut (destinations i) s t

/-- 10 R26 to R29: I, the stack and the timers change only by the instructions that name them. The last word changes by none: 10 R33, 40 R108
(D20, log 26). The parameters and the inputs, the model's fields, change by none (log 1, 4). -/
def Obligations.IndexStackAndTimersChangeOnlyByTheirInstructions : Prop :=
  ∀ (i : Instr) (s t : State), exec i s = .next t →
    (t.i ≠ s.i → (∃ a, i = .ldI a) ∨ (∃ x, i = .addI x) ∨ ∃ x, i = .ldF x) ∧
    (t.stack ≠ s.stack → i = .ret ∨ ∃ a, i = .call a) ∧
    (t.dt ≠ s.dt → ∃ x, i = .ldDtVx x) ∧ (t.st ≠ s.st → ∃ x, i = .ldStVx x) ∧
    t.last = s.last ∧ t.cfg = s.cfg ∧ t.inputs = s.inputs ∧ t.inputNo = s.inputNo

/-- 10 R25 and 40 R105: after the default advance PC changes only by a skip of 2, a jump, a call or a return. -/
def Obligations.PcChangesOnlyByControlFlow : Prop :=
  ∀ (i : Instr) (s t : State), exec i s = .next t → t.pc ≠ s.pc →
    (t.pc = s.pc + 2 ∧ ((∃ x kk, i = .seImm x kk ∨ i = .sneImm x kk) ∨ (∃ x y, i = .seReg x y ∨ i = .sneReg x y) ∨
        ∃ x, i = .skp x ∨ i = .sknp x)) ∨
    i = .ret ∨ ∃ addr, i = .jp addr ∨ i = .call addr ∨ i = .jpV0 addr

/-- 20 R55: memory changes only in the bytes that Fx33 and Fx55 store, from I upward; for every other instruction every byte reads as
before. -/
def Obligations.MemoryChangesOnlyInStoredBytes : Prop :=
  ∀ (i : Instr) (s t : State), exec i s = .next t → KeepsBytesOutside s.i.toNat (storeWidth i) s t

/-- 10 R30: the framebuffer is written, and display events are emitted, only by 00E0 and Dxyn. -/
def Obligations.ScreenChangesOnlyByDisplayInstructions : Prop :=
  ∀ (i : Instr) (s t : State), exec i s = .next t → i ≠ .cls → (∀ x y n, i ≠ .drw x y n) →
    (∀ c r, t.pixel c r = s.pixel c r) ∧ t.events = s.events

/-- 40 R112: the step's inputs are read only by Ex9E and ExA1 (the key) and Cxkk (the random byte): every other instruction does the same
under any inputs. -/
def Obligations.InputsAreReadOnlyByTheirInstructions : Prop :=
  ∀ (i : Instr) (s t u : State), u = { s with inputs := u.inputs, inputNo := u.inputNo } → exec i s = .next t →
    ((∃ x, i = .skp x ∨ i = .sknp x) → u.input.key = s.input.key) → ((∃ x kk, i = .rnd x kk) → u.input.rnd = s.input.rnd) →
    exec i u = .next { t with inputs := u.inputs, inputNo := u.inputNo }

/-! ## Invariants that every step keeps -/

/-- Memory stays in its canonical form. -/
def Obligations.StepKeepsMemoryForm : Prop := ∀ s t : State, MemoryForm s → step s = .next t → MemoryForm t

/-- 10 R23, and 00 R12 with 42 R152 (D14): PC and the return addresses stay in their range, so no write to PC ever wraps, and a stack limit
that is set is never passed. -/
def Obligations.StepKeepsPcAndStackBounds : Prop := ∀ s t : State, PcAndStackBounds s → step s = .next t → PcAndStackBounds t

/-- 41 R137, 20 R68: the events are enough to show the framebuffer: a renderer that follows them never falls behind. -/
def Obligations.StepKeepsRendererInAgreement : Prop := ∀ s t : State, RendererAgrees s → step s = .next t → RendererAgrees t

/-- The three invariants hold at reset, under the reset values the model names (log 4, 6 to 9). -/
def Obligations.ResetMeetsEveryInvariant : Prop :=
  MemoryForm State.reset ∧ PcAndStackBounds State.reset ∧ RendererAgrees State.reset

/-! ## Reset and load -/

/-- 10 R24, R43, R45: the reset values the source gives. -/
def Obligations.ResetValuesOfTheSource : Prop :=
  State.reset.pc = 0x200 ∧ State.reset.dt = 0 ∧ State.reset.st = 0 ∧ State.reset.mode = .running

/-- 10 R40, R41, R44, R46 and 70 R281, R283: the reset values the spec's writer decided (D6, D10 to D14, D20) and the model follows
(log 4 to 8, 26); with them the empty stack, which 10 R42 derives from the source's own test, and what an address at or above 4096, which
no caller reads, answers (log 32). -/
def Obligations.ResetValuesByDecision : Prop :=
  (∀ x, State.reset.getV x = 0) ∧ State.reset.i = 0 ∧ State.reset.stack = [] ∧ State.reset.last = none ∧
  (∀ c r, State.reset.pixel c r = false) ∧ (∀ a, fontSize ≤ a → State.reset.readByte a = 0) ∧
  (∀ (a : Nat) (h : a < fontSize), State.reset.readByte a = defaultFont[a]) ∧
  State.reset.cfg.stackLimit = none ∧ State.reset.cfg.edge = .fault

/-- 70 R280 to R282, R284 and 60 R247: construction refuses a program longer than 3584 bytes, with exit code 1; any other stands at 0x200,
with the font at 0 and zero elsewhere (D12, log 8; at and above 4096, where no caller reads, log 32), in a state that is otherwise the reset
state under the given parameters and meets the three invariants. -/
def Obligations.ConstructionLoadsFontAndProgram : Prop :=
  ∀ (cfg : Config) (p : Image),
    (maxProgram < p.length → construct cfg p = .error .loadTooLarge ∧ constructExit (construct cfg p) = some 1) ∧
    (p.length ≤ maxProgram → ∃ s, construct cfg p = .ok s ∧ constructExit (construct cfg p) = none ∧
      (∀ (k : Nat) (h : k < p.length), s.readByte (programBase + k) = p[k]) ∧
      (∀ (d j : Nat) (_ : d < 16) (h : 5 * d + j < fontSize), j < 5 → s.readByte (5 * d + j) = cfg.font[5 * d + j]) ∧
      (∀ a, fontSize ≤ a → a < programBase ∨ programBase + p.length ≤ a → s.readByte a = 0) ∧
      s.cfg = cfg ∧ KeepsAllBut [.memory, .config] State.reset s ∧ MemoryForm s ∧ PcAndStackBounds s ∧ RendererAgrees s)

/-- 20 R52, R53, R63: a byte written is read back, and every other byte reads as before. -/
def Obligations.MemoryReadAfterWrite : Prop :=
  ∀ (s : State) (a b : Nat) (v : Byte), a < memSize →
    (s.writeByte a v).readByte b = (if b = a then v else s.readByte b) ∧ KeepsAllBut [.memory] s (s.writeByte a v)

/-! ## Display -/

/-- 41 R131: the Bit Sequencer: eight bits, which read most-significant first as a binary number give the byte; the other direction is the
reverse; the bit at offset `b` is `(v >> (7 - b)) & 1`. -/
def Obligations.BitSequencerReadsBackTheByte : Prop :=
  ∀ v : Byte, (bitsMsb v).length = 8 ∧ (bitsMsb v).foldl (fun n b => 2 * n + b.toNat) 0 = v.toNat ∧
    bitsLsb v = (bitsMsb v).reverse ∧
    ∀ k, k < 8 → (bitsMsb v)[k]? = some (spriteBit v k) ∧ (spriteBit v k).toNat = v.toNat / 2 ^ (7 - k) % 2

/-- 41 R132 (that there is no flush is D23): CLS turns every pixel off and emits one DisplayClear, on a clear screen too. -/
def Obligations.ClsClearsEveryPixel : Prop :=
  EncodedAs .cls 0x00E0 0xFFFF 0 ∧
  ∀ s : State, ∃ t, exec .cls s = .next t ∧ (∀ c r, t.pixel c r = false) ∧ t.events = s.events ++ [.clear] ∧
    KeepsAllBut [.screen, .events] s t

/-- 30 R77, 41 R134, R135, R136, R138 (the edge policies are D6): DRW has its row; where nothing is raised, it toggles exactly the cells that a 1 bit of the sprite
targets, and VF is 1 iff some cell went from on to off. Every height, 0 included, and every policy. -/
def Obligations.DrwTogglesCoveredCells : Prop :=
  ∀ (x y n : Nibble) (s : State), EncodedAs (.drw x y n) 0xD000 0xF000 (x.toNat * 256 + y.toNat * 16 + n.toNat) ∧
    (DrawFits s (s.getV x).toNat (s.getV y).toNat n.toNat → ∃ t, exec (.drw x y n) s = .next t ∧
      (∀ c r, c < fbWidth → r < fbHeight →
        (t.pixel c r ≠ s.pixel c r ↔ Covers s (s.getV x).toNat (s.getV y).toNat n.toNat c r)) ∧
      ((∃ c r, s.pixel c r = true ∧ t.pixel c r = false) → t.getV 0xF = 1) ∧
      ((∀ c r, s.pixel c r = true → t.pixel c r = true) → t.getV 0xF = 0) ∧
      KeepsRegsBut [0xF] s t ∧ KeepsAllBut [.regs, .screen, .events] s t)

/-- 41 R137 (the order is D23): the events of a draw are one per changed cell with its new value, row by row and left to right, then one
flush if there is any. -/
def Obligations.DrwReportsChangedCellsThenFlush : Prop :=
  ∀ (x y n : Nibble) (s t : State), DrawFits s (s.getV x).toNat (s.getV y).toNat n.toNat → exec (.drw x y n) s = .next t →
    ∃ cells : List DisplayEvent,
      cells = (List.range n.toNat).flatMap (fun j => (List.range 8).filterMap fun b =>
        if spriteBit (s.readByte (s.i.toNat + j)) b then
          (spriteTarget s.cfg.edge ((s.getV x).toNat + b) ((s.getV y).toNat + j)).map fun p => .cell p.1 p.2 (t.pixel p.1 p.2)
        else none) ∧
      t.events = s.events ++ (if cells = [] then [] else cells ++ [.flush])

/-- 41 R139: the same sprite drawn twice at the same place restores the screen, and the second flag tells whether the first draw left one
of its cells on. `x` and `y` are not 15, since the first draw overwrites VF. -/
def Obligations.DrwTwiceRestoresTheScreen : Prop :=
  ∀ (x y n : Nibble) (s t : State), x ≠ 0xF → y ≠ 0xF → DrawFits s (s.getV x).toNat (s.getV y).toNat n.toNat →
    exec (.drw x y n) s = .next t →
    ∃ u, exec (.drw x y n) t = .next u ∧ (∀ c r, u.pixel c r = s.pixel c r) ∧
      ((∃ c r, t.pixel c r = true ∧ s.pixel c r = false) → u.getV 0xF = 1) ∧
      ((∀ c r, t.pixel c r = true → s.pixel c r = true) → u.getV 0xF = 0)

/-- 41 R133, R136, 60 R244, R245, R249 (D5, D6, D19, D21): where DRW traps. Memory is tested before the edge; nothing but the mode
changes. -/
def Obligations.DrwTraps : Prop :=
  ∀ (x y n : Nibble) (s : State), 0 < n.toNat →
    (memSize < s.i.toNat + n.toNat → ∃ t, exec (.drw x y n) s = .next t ∧
      HaltedBy .memoryOutOfBounds (encode (.drw x y n)) (.address (max s.i.toNat memSize)) s t ∧ KeepsAllBut [.mode] s t) ∧
    (s.i.toNat + n.toNat ≤ memSize → s.cfg.edge = .fault →
      fbWidth < (s.getV x).toNat + 8 ∨ fbHeight < (s.getV y).toNat + n.toNat →
      ∃ t, exec (.drw x y n) s = .next t ∧
        HaltedBy .drawOutOfBounds (encode (.drw x y n)) (.sprite (s.getV x) (s.getV y) n) s t ∧ KeepsAllBut [.mode] s t)

/-! ## Control flow -/

/-- 42 R150: RET pops the top of the stack into PC; on an empty stack it raises StackUnderflow and changes nothing but the mode. -/
def Obligations.RetPopsOrUnderflows : Prop :=
  EncodedAs .ret 0x00EE 0xFFFF 0 ∧
  (∀ (s : State) (a : Word) (rest : List Word), s.stack = a :: rest →
    ∃ t, exec .ret s = .next t ∧ t.pc = a ∧ t.stack = rest ∧ KeepsAllBut [.pc, .stack] s t) ∧
  (∀ s : State, s.stack = [] →
    ∃ t rec, exec .ret s = .next t ∧ t.mode = .halted (.fatal rec) ∧ rec.kind = .stackUnderflow ∧ rec.word = 0x00EE ∧
      KeepsAllBut [.mode] s t)

/-- 42 R151 and R153: JP sets PC to the operand, JP V0 to the operand plus V0, which never wraps. -/
def Obligations.JumpsSetPc : Prop :=
  ∀ (addr : Addr) (s : State),
    (EncodedAs (.jp addr) 0x1000 0xF000 addr.toNat ∧
      ∃ t, exec (.jp addr) s = .next t ∧ t.pc.toNat = addr.toNat ∧ KeepsAllBut [.pc] s t) ∧
    (EncodedAs (.jpV0 addr) 0xB000 0xF000 addr.toNat ∧
      ∃ t, exec (.jpV0 addr) s = .next t ∧ t.pc.toNat = addr.toNat + (s.getV 0x0).toNat ∧ KeepsAllBut [.pc] s t)

/-- 42 R152 (the limit is D14): CALL pushes the PC it finds, which is the address of the CALL plus 2, and jumps; a limit that is set and
reached raises StackOverflow instead and changes nothing but the mode. -/
def Obligations.CallPushesOrOverflows : Prop :=
  ∀ (addr : Addr) (s : State), EncodedAs (.call addr) 0x2000 0xF000 addr.toNat ∧
    ((∀ d, s.cfg.stackLimit = some d → s.stack.length < d) →
      ∃ t, exec (.call addr) s = .next t ∧ t.pc.toNat = addr.toNat ∧ t.stack = s.pc :: s.stack ∧ KeepsAllBut [.pc, .stack] s t) ∧
    (∀ d, s.cfg.stackLimit = some d → d ≤ s.stack.length →
      ∃ t, exec (.call addr) s = .next t ∧ HaltedBy .stackOverflow (encode (.call addr)) (.limit d) s t ∧ KeepsAllBut [.mode] s t)

/-- 42 R150, R152, 40 R105: a call and then a return come back to the instruction after the call with the stack as it was. -/
def Obligations.ReturnComesBackToTheCall : Prop :=
  ∀ (addr : Addr) (s t u : State), (∀ d, s.cfg.stackLimit = some d → s.stack.length < d) →
    exec (.call addr) s = .next t → u.stack = t.stack →
    ∃ r, exec .ret u = .next r ∧ r.pc = s.pc ∧ r.stack = s.stack

/-- 42 R154 to R157: the skips on registers and immediates add 2 to PC exactly when their condition holds, and change nothing else. -/
def Obligations.SkipsOnRegistersAndImmediates : Prop :=
  ∀ (x y : Nibble) (kk : Byte) (s : State),
    (EncodedAs (.seImm x kk) 0x3000 0xF000 (x.toNat * 256 + kk.toNat) ∧ ∃ t, exec (.seImm x kk) s = .next t ∧
      t.pc = (if s.getV x = kk then s.pc + 2 else s.pc) ∧ KeepsAllBut [.pc] s t) ∧
    (EncodedAs (.sneImm x kk) 0x4000 0xF000 (x.toNat * 256 + kk.toNat) ∧ ∃ t, exec (.sneImm x kk) s = .next t ∧
      t.pc = (if s.getV x ≠ kk then s.pc + 2 else s.pc) ∧ KeepsAllBut [.pc] s t) ∧
    (EncodedAs (.seReg x y) 0x5000 0xF00F (x.toNat * 256 + y.toNat * 16) ∧ ∃ t, exec (.seReg x y) s = .next t ∧
      t.pc = (if s.getV x = s.getV y then s.pc + 2 else s.pc) ∧ KeepsAllBut [.pc] s t) ∧
    (EncodedAs (.sneReg x y) 0x9000 0xF00F (x.toNat * 256 + y.toNat * 16) ∧ ∃ t, exec (.sneReg x y) s = .next t ∧
      t.pc = (if s.getV x ≠ s.getV y then s.pc + 2 else s.pc) ∧ KeepsAllBut [.pc] s t)

/-! ## Registers and arithmetic -/

/-- 43 R170, R171, R172: load an immediate, add one without a flag, copy a register. -/
def Obligations.LoadsAndImmediateAdd : Prop :=
  ∀ (x y : Nibble) (kk : Byte) (s : State),
    (EncodedAs (.ldImm x kk) 0x6000 0xF000 (x.toNat * 256 + kk.toNat) ∧ ∃ t, exec (.ldImm x kk) s = .next t ∧
      t.getV x = kk ∧ KeepsRegsBut [x] s t ∧ KeepsAllBut [.regs] s t) ∧
    (EncodedAs (.addImm x kk) 0x7000 0xF000 (x.toNat * 256 + kk.toNat) ∧ ∃ t, exec (.addImm x kk) s = .next t ∧
      (t.getV x).toNat = ((s.getV x).toNat + kk.toNat) % 256 ∧ KeepsRegsBut [x] s t ∧ KeepsAllBut [.regs] s t) ∧
    (EncodedAs (.ldReg x y) 0x8000 0xF00F (x.toNat * 256 + y.toNat * 16) ∧ ∃ t, exec (.ldReg x y) s = .next t ∧
      t.getV x = s.getV y ∧ KeepsRegsBut [x] s t ∧ KeepsAllBut [.regs] s t)

/-- 43 R173, R174, R175: OR, AND and XOR, bit by bit; VF changes only as the destination. -/
def Obligations.BitwiseOperationsWriteNoFlag : Prop :=
  ∀ (x y : Nibble) (s : State),
    (EncodedAs (.orReg x y) 0x8001 0xF00F (x.toNat * 256 + y.toNat * 16) ∧ ∃ t, exec (.orReg x y) s = .next t ∧
      (∀ b, (t.getV x).getLsbD b = ((s.getV x).getLsbD b || (s.getV y).getLsbD b)) ∧
      KeepsRegsBut [x] s t ∧ KeepsAllBut [.regs] s t) ∧
    (EncodedAs (.andReg x y) 0x8002 0xF00F (x.toNat * 256 + y.toNat * 16) ∧ ∃ t, exec (.andReg x y) s = .next t ∧
      (∀ b, (t.getV x).getLsbD b = ((s.getV x).getLsbD b && (s.getV y).getLsbD b)) ∧
      KeepsRegsBut [x] s t ∧ KeepsAllBut [.regs] s t) ∧
    (EncodedAs (.xorReg x y) 0x8003 0xF00F (x.toNat * 256 + y.toNat * 16) ∧ ∃ t, exec (.xorReg x y) s = .next t ∧
      (∀ b, (t.getV x).getLsbD b = ((s.getV x).getLsbD b ^^ (s.getV y).getLsbD b)) ∧
      KeepsRegsBut [x] s t ∧ KeepsAllBut [.regs] s t)

/-- 43 R176, R177, R179, R182: sum and differences modulo 256, and VF as carry or as no-borrow. Where `x` is 15 VF ends as the flag, by
the write order of D7 (43 R181; log 18). -/
def Obligations.AddAndSubtractSetVf : Prop :=
  ∀ (x y : Nibble) (s : State),
    (EncodedAs (.addReg x y) 0x8004 0xF00F (x.toNat * 256 + y.toNat * 16) ∧ ∃ t, exec (.addReg x y) s = .next t ∧
      (x ≠ 0xF → (t.getV x).toNat = ((s.getV x).toNat + (s.getV y).toNat) % 256) ∧
      t.getV 0xF = (if 256 ≤ (s.getV x).toNat + (s.getV y).toNat then 1 else 0) ∧
      KeepsRegsBut [x, 0xF] s t ∧ KeepsAllBut [.regs] s t) ∧
    (EncodedAs (.subReg x y) 0x8005 0xF00F (x.toNat * 256 + y.toNat * 16) ∧ ∃ t, exec (.subReg x y) s = .next t ∧
      (x ≠ 0xF → (t.getV x).toNat = ((s.getV x).toNat + 256 - (s.getV y).toNat) % 256) ∧
      t.getV 0xF = (if (s.getV y).toNat ≤ (s.getV x).toNat then 1 else 0) ∧
      KeepsRegsBut [x, 0xF] s t ∧ KeepsAllBut [.regs] s t) ∧
    (EncodedAs (.subnReg x y) 0x8007 0xF00F (x.toNat * 256 + y.toNat * 16) ∧ ∃ t, exec (.subnReg x y) s = .next t ∧
      (x ≠ 0xF → (t.getV x).toNat = ((s.getV y).toNat + 256 - (s.getV x).toNat) % 256) ∧
      t.getV 0xF = (if (s.getV x).toNat ≤ (s.getV y).toNat then 1 else 0) ∧
      KeepsRegsBut [x, 0xF] s t ∧ KeepsAllBut [.regs] s t)

/-- 43 R178, R180: the shifts of Vx by one; VF is bit 0 of the old Vx in both directions; `y` is not read. Where `x` is 15 VF ends as the
shifted value, by the write order of D7 (43 R181; log 18). -/
def Obligations.ShiftsSetVfToBitZero : Prop :=
  ∀ (x y : Nibble) (s : State),
    (EncodedAs (.shr x y) 0x8006 0xF00F (x.toNat * 256 + y.toNat * 16) ∧ ∃ t, exec (.shr x y) s = .next t ∧
      (t.getV x).toNat = (s.getV x).toNat / 2 ∧ (x ≠ 0xF → (t.getV 0xF).toNat = (s.getV x).toNat % 2) ∧
      KeepsRegsBut [x, 0xF] s t ∧ KeepsAllBut [.regs] s t ∧ ∀ y', exec (.shr x y') s = .next t) ∧
    (EncodedAs (.shl x y) 0x800E 0xF00F (x.toNat * 256 + y.toNat * 16) ∧ ∃ t, exec (.shl x y) s = .next t ∧
      (t.getV x).toNat = (s.getV x).toNat * 2 % 256 ∧ (x ≠ 0xF → (t.getV 0xF).toNat = (s.getV x).toNat % 2) ∧
      KeepsRegsBut [x, 0xF] s t ∧ KeepsAllBut [.regs] s t ∧ ∀ y', exec (.shl x y') s = .next t)

/-- 43 R184, R185 (the random byte is the step's input, D18): RND writes the byte masked; no bit outside the mask is set. -/
def Obligations.RndMasksTheStepsRandomByte : Prop :=
  ∀ (x : Nibble) (kk : Byte) (s : State), EncodedAs (.rnd x kk) 0xC000 0xF000 (x.toNat * 256 + kk.toNat) ∧
    ∃ t, exec (.rnd x kk) s = .next t ∧ t.getV x = s.input.rnd &&& kk ∧ KeepsRegsBut [x] s t ∧ KeepsAllBut [.regs] s t

/-! ## Address register and memory -/

/-- 44 R200, R201: LD I loads the operand; ADD I adds Vx modulo 65536, with no flag. -/
def Obligations.IndexLoadAndAdd : Prop :=
  ∀ (addr : Addr) (x : Nibble) (s : State),
    (EncodedAs (.ldI addr) 0xA000 0xF000 addr.toNat ∧ ∃ t, exec (.ldI addr) s = .next t ∧
      t.i.toNat = addr.toNat ∧ KeepsAllBut [.index] s t) ∧
    (EncodedAs (.addI x) 0xF01E 0xF0FF (x.toNat * 256) ∧ ∃ t, exec (.addI x) s = .next t ∧
      t.i.toNat = (s.i.toNat + (s.getV x).toNat) % 65536 ∧ KeepsAllBut [.index] s t)

/-- 44 R202 (the full byte is D9): LD F points I at `Vx * 5`. -/
def Obligations.GlyphAddressIsFiveTimesTheDigit : Prop :=
  ∀ (x : Nibble) (s : State), EncodedAs (.ldF x) 0xF029 0xF0FF (x.toNat * 256) ∧
    ∃ t, exec (.ldF x) s = .next t ∧ t.i.toNat = (s.getV x).toNat * 5 ∧ KeepsAllBut [.index] s t

/-- 44 R203, R206 (I unchanged is D8): in range, LD B stores the three decimal digits at I, I+1, I+2 and nothing else. -/
def Obligations.BcdStoresThreeDigits : Prop :=
  ∀ (x : Nibble) (s : State), EncodedAs (.ldB x) 0xF033 0xF0FF (x.toNat * 256) ∧ (s.i.toNat + 2 < memSize →
    ∃ t, exec (.ldB x) s = .next t ∧ (t.readByte s.i.toNat).toNat = (s.getV x).toNat / 100 ∧
      (t.readByte (s.i.toNat + 1)).toNat = (s.getV x).toNat / 10 % 10 ∧
      (t.readByte (s.i.toNat + 2)).toNat = (s.getV x).toNat % 10 ∧
      KeepsBytesOutside s.i.toNat 3 s t ∧ KeepsAllBut [.memory] s t)

/-- 44 R204, R206 (I unchanged is D8): in range, LD [I], Vx stores V0 to Vx from I upward and nothing else. -/
def Obligations.BlockStoreWritesRegisters : Prop :=
  ∀ (x : Nibble) (s : State), EncodedAs (.stRegs x) 0xF055 0xF0FF (x.toNat * 256) ∧ (s.i.toNat + x.toNat < memSize →
    ∃ t, exec (.stRegs x) s = .next t ∧ (∀ r : Nibble, r ≤ x → t.readByte (s.i.toNat + r.toNat) = s.getV r) ∧
      KeepsBytesOutside s.i.toNat (x.toNat + 1) s t ∧ KeepsAllBut [.memory] s t)

/-- 44 R205, R206 (I unchanged is D8): in range, LD Vx, [I] loads V0 to Vx from I upward; the other registers keep their values. -/
def Obligations.BlockLoadReadsRegisters : Prop :=
  ∀ (x : Nibble) (s : State), EncodedAs (.ldRegs x) 0xF065 0xF0FF (x.toNat * 256) ∧ (s.i.toNat + x.toNat < memSize →
    ∃ t, exec (.ldRegs x) s = .next t ∧ (∀ r : Nibble, r ≤ x → t.getV r = s.readByte (s.i.toNat + r.toNat)) ∧
      (∀ r : Nibble, x < r → t.getV r = s.getV r) ∧ KeepsAllBut [.regs] s t)

/-- 20 R54, 60 R244 (D5, D19): where the block transfers trap: some byte of the range lies at or above 4096. The first such address is
reported and nothing but the mode changes. -/
def Obligations.BlockTransfersTrapOutOfBounds : Prop :=
  ∀ (x : Nibble) (s : State),
    (memSize ≤ s.i.toNat + 2 → ∃ t, exec (.ldB x) s = .next t ∧
      HaltedBy .memoryOutOfBounds (encode (.ldB x)) (.address (max s.i.toNat memSize)) s t ∧ KeepsAllBut [.mode] s t) ∧
    (memSize ≤ s.i.toNat + x.toNat →
      (∃ t, exec (.stRegs x) s = .next t ∧
        HaltedBy .memoryOutOfBounds (encode (.stRegs x)) (.address (max s.i.toNat memSize)) s t ∧ KeepsAllBut [.mode] s t) ∧
      (∃ t, exec (.ldRegs x) s = .next t ∧
        HaltedBy .memoryOutOfBounds (encode (.ldRegs x)) (.address (max s.i.toNat memSize)) s t ∧ KeepsAllBut [.mode] s t))

/-- 20 R66, 70 R293: after a store in range the fetch at PC reads the bytes just stored, be it both bytes of the word,
one or none; a byte not stored is the one that stood there. For both stores: the digits of LD B, the registers of LD [I], Vx. -/
def Obligations.StoredBytesAreFetchedNext : Prop :=
  ∀ (x : Nibble) (s : State), s.pc.toNat + 2 ≤ memSize →
    (s.i.toNat + 2 < memSize → ∃ t, exec (.ldB x) s = .next t ∧
      t.fetchWord = some (wordAfterStore s 3 fun k => BitVec.ofNat 8 ((s.getV x).toNat / 10 ^ (2 - k) % 10))) ∧
    (s.i.toNat + x.toNat < memSize → ∃ t, exec (.stRegs x) s = .next t ∧
      t.fetchWord = some (wordAfterStore s (x.toNat + 1) fun k => s.getV (BitVec.ofNat 4 k)))

/-! ## Keypad and timers -/

/-- 45 R221, R222 (the key is the step's input, D15): SKP skips iff a key is there and equals Vx, SKNP iff one is there and differs; with no
key neither skips. -/
def Obligations.KeySkipsNeedAKey : Prop :=
  ∀ (x : Nibble) (s : State),
    (EncodedAs (.skp x) 0xE09E 0xF0FF (x.toNat * 256) ∧ ∃ t, exec (.skp x) s = .next t ∧ KeepsAllBut [.pc] s t ∧
      (s.input.key = none → t.pc = s.pc) ∧
      (∀ k, s.input.key = some k → t.pc = if (s.getV x).toNat = k.toNat then s.pc + 2 else s.pc)) ∧
    (EncodedAs (.sknp x) 0xE0A1 0xF0FF (x.toNat * 256) ∧ ∃ t, exec (.sknp x) s = .next t ∧ KeepsAllBut [.pc] s t ∧
      (s.input.key = none → t.pc = s.pc) ∧
      (∀ k, s.input.key = some k → t.pc = if (s.getV x).toNat ≠ k.toNat then s.pc + 2 else s.pc))

/-- 45 R223, 40 R110 (D26): LD Vx, K suspends in its dispatch step whatever the key: no register, no tick, no retire; PC already points past
it. -/
def Obligations.KeyWaitSuspends : Prop :=
  ∀ (x : Nibble) (s : State), EncodedAs (.ldVxK x) 0xF00A 0xF0FF (x.toNat * 256) ∧
    (∃ t, exec (.ldVxK x) s = .next t ∧ t.mode = .waitKey x (encode (.ldVxK x)) ∧ KeepsAllBut [.mode] s t) ∧
    (Fetches s (.ldVxK x) → ∃ t, step s = .next t ∧ t.mode = .waitKey x (wordAtPc s) ∧ t.pc = s.pc + 2 ∧
      KeepsAllBut [.mode, .pc, .inputs] s t)

/-- 45 R224 (D16): the wait step that gets a key writes Vx, goes on Running, ticks once and retires the suspended word. -/
def Obligations.KeyCompletesTheWait : Prop :=
  ∀ (s : State) (x : Nibble) (w : Word) (k : Nibble), s.mode = .waitKey x w → s.input.abort = false → s.input.key = some k →
    ∃ t, step s = .next t ∧ (t.getV x).toNat = k.toNat ∧ t.mode = .running ∧ t.last = some w ∧ Ticked s.dt t.dt ∧ Ticked s.st t.st ∧
      KeepsRegsBut [x] s t ∧ KeepsAllBut [.regs, .mode, .last, .delay, .sound, .inputs] s t

/-- 45 R224, R225: during a wait nothing else runs and no timer ticks. One wait step without a key and without the host's abort, its input
listed or not, leaves the core waiting with nothing changed; so does any number of them whose inputs are listed. How the inputs are held and
taken is the model's: log 1, and past the list log 2 (the key is a free value) and log 3. -/
def Obligations.WaitWithoutKeyChangesNothing : Prop :=
  ∀ (s : State) (x : Nibble) (w : Word), s.mode = .waitKey x w →
    (s.input.abort = false → s.input.key = none →
      ∃ t, step s = .next t ∧ KeepsAllBut [.inputs] s t ∧ t.inputs = s.inputs.tail ∧ t.inputNo = s.inputNo + 1) ∧
    (∀ n, n ≤ s.inputs.length → (∀ e ∈ s.inputs.take n, e.abort = false ∧ e.key = none) →
      ∃ t, Host.Core.run Sys2Proof.core n s = .next t ∧ KeepsAllBut [.inputs] s t ∧ t.inputs = s.inputs.drop n)

/-- 46 R231: LD Vx, DT reads the delay timer before the tick of its own cycle, and DT is then ticked as usual. -/
def Obligations.ReadDelayTimerBeforeTheTick : Prop :=
  ∀ (x : Nibble) (s : State), EncodedAs (.ldVxDt x) 0xF007 0xF0FF (x.toNat * 256) ∧
    (∃ t, exec (.ldVxDt x) s = .next t ∧ t.getV x = s.dt ∧ KeepsRegsBut [x] s t ∧ KeepsAllBut [.regs] s t) ∧
    (Fetches s (.ldVxDt x) → ∃ t, step s = .next t ∧ t.getV x = s.dt ∧ Ticked s.dt t.dt)

/-- 46 R232, R233: LD DT and LD ST set their timer to Vx; the tick of the same cycle follows, so that it ends one lower, or 0. -/
def Obligations.TimersSetThenTicked : Prop :=
  ∀ (x : Nibble) (s : State),
    (EncodedAs (.ldDtVx x) 0xF015 0xF0FF (x.toNat * 256) ∧
      (∃ t, exec (.ldDtVx x) s = .next t ∧ t.dt = s.getV x ∧ KeepsAllBut [.delay] s t) ∧
      (Fetches s (.ldDtVx x) → ∃ t, step s = .next t ∧ Ticked (s.getV x) t.dt ∧ Ticked s.st t.st)) ∧
    (EncodedAs (.ldStVx x) 0xF018 0xF0FF (x.toNat * 256) ∧
      (∃ t, exec (.ldStVx x) s = .next t ∧ t.st = s.getV x ∧ KeepsAllBut [.sound] s t) ∧
      (Fetches s (.ldStVx x) → ∃ t, step s = .next t ∧ Ticked (s.getV x) t.st ∧ Ticked s.dt t.dt))

/-! ## Outputs -/

/-- 46 R235, 60 R247, R265, R266 (D19, D22): the sound output is on iff ST is not 0; the status tells the mode; a fatal halt, and every
fatal kind with LoadTooLarge among them, reports exit code 1, any other halt 0; the fatal codes are 1 to 6. -/
def Obligations.OutputsFollowTheState : Prop :=
  (∀ s : State, (s.soundOn = true ↔ s.st ≠ 0) ∧ (s.status = .running ↔ s.mode = .running) ∧
    (s.status = .waiting ↔ ∃ x w, s.mode = .waitKey x w) ∧
    (∀ r c, s.status = .halted r c ↔ s.mode = .halted r ∧ c = r.exitCode)) ∧
  (∀ r : HaltReason, r.exitCode = 1 ↔ ∃ rec, r = .fatal rec) ∧ (∀ r : HaltReason, r.exitCode = 0 ∨ r.exitCode = 1) ∧
  (∀ k : FatalKind, k.exitCode = 1) ∧
  [FatalKind.decodeError, .stackUnderflow, .stackOverflow, .memoryOutOfBounds, .drawOutOfBounds, .loadTooLarge].map FatalKind.code =
    [1, 2, 3, 4, 5, 6]
end

