-- ==== Sys2Proof/Laws/Decode.lean ====
section
/-! SUPPORT. The fields of a word on the naturals, and the words of each format. -/

namespace Sys2Proof

theorem opField_toNat (w : Word) : (opField w).toNat = w.toNat / 4096 := by
  have := w.isLt
  simp [opField, BitVec.extractLsb'_toNat, Nat.shiftRight_eq_div_pow]; omega

theorem xField_toNat (w : Word) : (xField w).toNat = w.toNat / 256 % 16 := by
  simp [xField, BitVec.extractLsb'_toNat, Nat.shiftRight_eq_div_pow]

theorem yField_toNat (w : Word) : (yField w).toNat = w.toNat / 16 % 16 := by
  simp [yField, BitVec.extractLsb'_toNat, Nat.shiftRight_eq_div_pow]

theorem nField_toNat (w : Word) : (nField w).toNat = w.toNat % 16 := by
  simp [nField, BitVec.extractLsb'_toNat]

theorem kkField_toNat (w : Word) : (kkField w).toNat = w.toNat % 256 := by
  simp [kkField, BitVec.extractLsb'_toNat]

theorem addrField_toNat (w : Word) : (addrField w).toNat = w.toNat % 4096 := by
  simp [addrField, BitVec.extractLsb'_toNat]

/-- Concatenation on the naturals (00 R15). -/
theorem append_toNat {m n : Nat} (a : BitVec m) (b : BitVec n) : (a ++ b).toNat = a.toNat * 2 ^ n + b.toNat := by
  rw [BitVec.toNat_append, Nat.shiftLeft_eq, Nat.mul_comm, Nat.two_pow_add_eq_or_of_lt b.isLt]

/-- A word of format `nnn`. -/
theorem word_nnn_toNat (op : Nibble) (addr : Addr) : (op ++ addr : Word).toNat = op.toNat * 4096 + addr.toNat := append_toNat _ _

/-- A word of format `xkk` or `xff`. -/
theorem word_xkk_toNat (op x : Nibble) (kk : Byte) : (op ++ x ++ kk : Word).toNat = op.toNat * 4096 + x.toNat * 256 + kk.toNat := by
  rw [append_toNat, append_toNat]; omega

/-- A word of format `xyf` or `xyn`. -/
theorem word_xyn_toNat (op x y n : Nibble) :
    (op ++ x ++ y ++ n : Word).toNat = op.toNat * 4096 + x.toNat * 256 + y.toNat * 16 + n.toNat := by
  rw [append_toNat, append_toNat, append_toNat]; omega

section Fields
variable (op x y n : Nibble) (kk : Byte) (addr : Addr)

@[simp] theorem opField_nnn : opField (op ++ addr) = op := by
  apply BitVec.eq_of_toNat_eq
  have := addr.isLt
  rw [opField_toNat, word_nnn_toNat]; omega

@[simp] theorem addrField_nnn : addrField (op ++ addr) = addr := by
  apply BitVec.eq_of_toNat_eq
  have := addr.isLt
  rw [addrField_toNat, word_nnn_toNat]; omega

@[simp] theorem opField_xkk : opField (op ++ x ++ kk) = op := by
  apply BitVec.eq_of_toNat_eq
  have := x.isLt; have := kk.isLt
  rw [opField_toNat, word_xkk_toNat]; omega

@[simp] theorem xField_xkk : xField (op ++ x ++ kk) = x := by
  apply BitVec.eq_of_toNat_eq
  have := x.isLt; have := kk.isLt
  rw [xField_toNat, word_xkk_toNat]; omega

@[simp] theorem kkField_xkk : kkField (op ++ x ++ kk) = kk := by
  apply BitVec.eq_of_toNat_eq
  have := kk.isLt
  rw [kkField_toNat, word_xkk_toNat]; omega

@[simp] theorem opField_xyn : opField (op ++ x ++ y ++ n) = op := by
  apply BitVec.eq_of_toNat_eq
  have := x.isLt; have := y.isLt; have := n.isLt
  rw [opField_toNat, word_xyn_toNat]; omega

@[simp] theorem xField_xyn : xField (op ++ x ++ y ++ n) = x := by
  apply BitVec.eq_of_toNat_eq
  have := x.isLt; have := y.isLt; have := n.isLt
  rw [xField_toNat, word_xyn_toNat]; omega

@[simp] theorem yField_xyn : yField (op ++ x ++ y ++ n) = y := by
  apply BitVec.eq_of_toNat_eq
  have := y.isLt; have := n.isLt
  rw [yField_toNat, word_xyn_toNat]; omega

@[simp] theorem nField_xyn : nField (op ++ x ++ y ++ n) = n := by
  apply BitVec.eq_of_toNat_eq
  have := n.isLt
  rw [nField_toNat, word_xyn_toNat]; omega

end Fields

/-- A word is its op nibble and its address operand. -/
theorem word_eq_nnn (w : Word) : opField w ++ addrField w = w := by
  apply BitVec.eq_of_toNat_eq
  rw [word_nnn_toNat, opField_toNat, addrField_toNat]; omega

/-- A word is its op and x nibbles and its byte operand. -/
theorem word_eq_xkk (w : Word) : opField w ++ xField w ++ kkField w = w := by
  apply BitVec.eq_of_toNat_eq
  have := w.isLt
  rw [word_xkk_toNat, opField_toNat, xField_toNat, kkField_toNat]; omega

/-- A word is its four nibbles. -/
theorem word_eq_xyn (w : Word) : opField w ++ xField w ++ yField w ++ nField w = w := by
  apply BitVec.eq_of_toNat_eq
  have := w.isLt
  rw [word_xyn_toNat, opField_toNat, xField_toNat, yField_toNat, nField_toNat]; omega

/-! ## Masks -/

/-- Masking distributes over concatenation. -/
theorem append_and {m n : Nat} (a c : BitVec m) (b d : BitVec n) : (a ++ b) &&& (c ++ d) = (a &&& c) ++ (b &&& d) := by
  ext i hi
  simp only [BitVec.getElem_and, BitVec.getElem_append]
  split <;> simp

/-- The mask of format `nnn` leaves the op nibble. -/
theorem nnn_and_mask (op : Nibble) (addr : Addr) : (op ++ addr : Word) &&& 0xF000 = op ++ 0x000#12 := by
  have h : ((op ++ addr) &&& (0xF#4 ++ 0x000#12)) = (op &&& 0xF#4) ++ (addr &&& 0x000#12) := append_and _ _ _ _
  have e : op &&& 0xF#4 = op := BitVec.and_allOnes
  rw [e, BitVec.and_zero] at h
  exact h

/-- The mask of format `xkk` leaves the op nibble. -/
theorem xkk_and_mask (op x : Nibble) (kk : Byte) : (op ++ x ++ kk : Word) &&& 0xF000 = op ++ 0x0#4 ++ 0x00#8 := by
  have h : ((op ++ x ++ kk) &&& (0xF#4 ++ 0x0#4 ++ 0x00#8)) = (op &&& 0xF#4) ++ (x &&& 0x0#4) ++ (kk &&& 0x00#8) := by
    rw [append_and, append_and]
  have e : op &&& 0xF#4 = op := BitVec.and_allOnes
  rw [e, BitVec.and_zero, BitVec.and_zero] at h
  exact h

/-- The mask of format `xff` leaves the op nibble and the function byte. -/
theorem xff_and_mask (op x : Nibble) (kk : Byte) : (op ++ x ++ kk : Word) &&& 0xF0FF = op ++ 0x0#4 ++ kk := by
  have h : ((op ++ x ++ kk) &&& (0xF#4 ++ 0x0#4 ++ 0xFF#8)) = (op &&& 0xF#4) ++ (x &&& 0x0#4) ++ (kk &&& 0xFF#8) := by
    rw [append_and, append_and]
  have e : op &&& 0xF#4 = op := BitVec.and_allOnes
  have e' : kk &&& 0xFF#8 = kk := BitVec.and_allOnes
  rw [e, e', BitVec.and_zero] at h
  exact h

/-- The mask of format `xyf` leaves the op nibble and the function nibble. -/
theorem xyf_and_mask (op x y n : Nibble) : (op ++ x ++ y ++ n : Word) &&& 0xF00F = op ++ 0x0#4 ++ 0x0#4 ++ n := by
  have h : ((op ++ x ++ y ++ n) &&& (0xF#4 ++ 0x0#4 ++ 0x0#4 ++ 0xF#4)) =
      (op &&& 0xF#4) ++ (x &&& 0x0#4) ++ (y &&& 0x0#4) ++ (n &&& 0xF#4) := by
    rw [append_and, append_and, append_and]
  have e : ∀ a : Nibble, a &&& 0xF#4 = a := fun _ => BitVec.and_allOnes
  rw [e, e, BitVec.and_zero, BitVec.and_zero] at h
  exact h

/-- The mask of format `xyn` leaves the op nibble. -/
theorem xyn_and_mask (op x y n : Nibble) : (op ++ x ++ y ++ n : Word) &&& 0xF000 = op ++ 0x0#4 ++ 0x0#4 ++ 0x0#4 := by
  have h : ((op ++ x ++ y ++ n) &&& (0xF#4 ++ 0x0#4 ++ 0x0#4 ++ 0x0#4)) =
      (op &&& 0xF#4) ++ (x &&& 0x0#4) ++ (y &&& 0x0#4) ++ (n &&& 0x0#4) := by
    rw [append_and, append_and, append_and]
  have e : op &&& 0xF#4 = op := BitVec.and_allOnes
  rw [e, BitVec.and_zero, BitVec.and_zero, BitVec.and_zero] at h
  exact h

end Sys2Proof
end

