-- ==== Sys2Proof/Laws/State.lean ====
section
/-! SUPPORT. One lemma per field per update of the state, and the accessors over the updates that do not touch what they read. -/

namespace Sys2Proof.Machine

/-! ### setV -/

@[simp] theorem State.setV_v (s : State) (x : Nibble) (b : Byte) : (s.setV x b).v = s.v.set x.toNat b x.isLt := rfl
@[simp] theorem State.setV_i (s : State) (x : Nibble) (b : Byte) : (s.setV x b).i = s.i := rfl
@[simp] theorem State.setV_pc (s : State) (x : Nibble) (b : Byte) : (s.setV x b).pc = s.pc := rfl
@[simp] theorem State.setV_stack (s : State) (x : Nibble) (b : Byte) : (s.setV x b).stack = s.stack := rfl
@[simp] theorem State.setV_dt (s : State) (x : Nibble) (b : Byte) : (s.setV x b).dt = s.dt := rfl
@[simp] theorem State.setV_st (s : State) (x : Nibble) (b : Byte) : (s.setV x b).st = s.st := rfl
@[simp] theorem State.setV_mem (s : State) (x : Nibble) (b : Byte) : (s.setV x b).mem = s.mem := rfl
@[simp] theorem State.setV_fb (s : State) (x : Nibble) (b : Byte) : (s.setV x b).fb = s.fb := rfl
@[simp] theorem State.setV_mode (s : State) (x : Nibble) (b : Byte) : (s.setV x b).mode = s.mode := rfl
@[simp] theorem State.setV_last (s : State) (x : Nibble) (b : Byte) : (s.setV x b).last = s.last := rfl
@[simp] theorem State.setV_cfg (s : State) (x : Nibble) (b : Byte) : (s.setV x b).cfg = s.cfg := rfl
@[simp] theorem State.setV_inputs (s : State) (x : Nibble) (b : Byte) : (s.setV x b).inputs = s.inputs := rfl
@[simp] theorem State.setV_inputNo (s : State) (x : Nibble) (b : Byte) : (s.setV x b).inputNo = s.inputNo := rfl
@[simp] theorem State.setV_events (s : State) (x : Nibble) (b : Byte) : (s.setV x b).events = s.events := rfl

/-! ### setFlag -/

@[simp] theorem State.setFlag_v (s : State) (f : Bool) : (s.setFlag f).v = s.v.set 15 (if f then 0x01 else 0x00) := rfl
@[simp] theorem State.setFlag_i (s : State) (f : Bool) : (s.setFlag f).i = s.i := rfl
@[simp] theorem State.setFlag_pc (s : State) (f : Bool) : (s.setFlag f).pc = s.pc := rfl
@[simp] theorem State.setFlag_stack (s : State) (f : Bool) : (s.setFlag f).stack = s.stack := rfl
@[simp] theorem State.setFlag_dt (s : State) (f : Bool) : (s.setFlag f).dt = s.dt := rfl
@[simp] theorem State.setFlag_st (s : State) (f : Bool) : (s.setFlag f).st = s.st := rfl
@[simp] theorem State.setFlag_mem (s : State) (f : Bool) : (s.setFlag f).mem = s.mem := rfl
@[simp] theorem State.setFlag_fb (s : State) (f : Bool) : (s.setFlag f).fb = s.fb := rfl
@[simp] theorem State.setFlag_mode (s : State) (f : Bool) : (s.setFlag f).mode = s.mode := rfl
@[simp] theorem State.setFlag_last (s : State) (f : Bool) : (s.setFlag f).last = s.last := rfl
@[simp] theorem State.setFlag_cfg (s : State) (f : Bool) : (s.setFlag f).cfg = s.cfg := rfl
@[simp] theorem State.setFlag_inputs (s : State) (f : Bool) : (s.setFlag f).inputs = s.inputs := rfl
@[simp] theorem State.setFlag_inputNo (s : State) (f : Bool) : (s.setFlag f).inputNo = s.inputNo := rfl
@[simp] theorem State.setFlag_events (s : State) (f : Bool) : (s.setFlag f).events = s.events := rfl

/-! ### loadBlock -/

@[simp] theorem State.loadBlock_i (s : State) (x : Nibble) (a : Nat) : (s.loadBlock x a).i = s.i := rfl
@[simp] theorem State.loadBlock_pc (s : State) (x : Nibble) (a : Nat) : (s.loadBlock x a).pc = s.pc := rfl
@[simp] theorem State.loadBlock_stack (s : State) (x : Nibble) (a : Nat) : (s.loadBlock x a).stack = s.stack := rfl
@[simp] theorem State.loadBlock_dt (s : State) (x : Nibble) (a : Nat) : (s.loadBlock x a).dt = s.dt := rfl
@[simp] theorem State.loadBlock_st (s : State) (x : Nibble) (a : Nat) : (s.loadBlock x a).st = s.st := rfl
@[simp] theorem State.loadBlock_mem (s : State) (x : Nibble) (a : Nat) : (s.loadBlock x a).mem = s.mem := rfl
@[simp] theorem State.loadBlock_fb (s : State) (x : Nibble) (a : Nat) : (s.loadBlock x a).fb = s.fb := rfl
@[simp] theorem State.loadBlock_mode (s : State) (x : Nibble) (a : Nat) : (s.loadBlock x a).mode = s.mode := rfl
@[simp] theorem State.loadBlock_last (s : State) (x : Nibble) (a : Nat) : (s.loadBlock x a).last = s.last := rfl
@[simp] theorem State.loadBlock_cfg (s : State) (x : Nibble) (a : Nat) : (s.loadBlock x a).cfg = s.cfg := rfl
@[simp] theorem State.loadBlock_inputs (s : State) (x : Nibble) (a : Nat) : (s.loadBlock x a).inputs = s.inputs := rfl
@[simp] theorem State.loadBlock_inputNo (s : State) (x : Nibble) (a : Nat) : (s.loadBlock x a).inputNo = s.inputNo := rfl
@[simp] theorem State.loadBlock_events (s : State) (x : Nibble) (a : Nat) : (s.loadBlock x a).events = s.events := rfl

/-! ### setI -/

@[simp] theorem State.setI_v (s : State) (a : Word) : (s.setI a).v = s.v := rfl
@[simp] theorem State.setI_i (s : State) (a : Word) : (s.setI a).i = a := rfl
@[simp] theorem State.setI_pc (s : State) (a : Word) : (s.setI a).pc = s.pc := rfl
@[simp] theorem State.setI_stack (s : State) (a : Word) : (s.setI a).stack = s.stack := rfl
@[simp] theorem State.setI_dt (s : State) (a : Word) : (s.setI a).dt = s.dt := rfl
@[simp] theorem State.setI_st (s : State) (a : Word) : (s.setI a).st = s.st := rfl
@[simp] theorem State.setI_mem (s : State) (a : Word) : (s.setI a).mem = s.mem := rfl
@[simp] theorem State.setI_fb (s : State) (a : Word) : (s.setI a).fb = s.fb := rfl
@[simp] theorem State.setI_mode (s : State) (a : Word) : (s.setI a).mode = s.mode := rfl
@[simp] theorem State.setI_last (s : State) (a : Word) : (s.setI a).last = s.last := rfl
@[simp] theorem State.setI_cfg (s : State) (a : Word) : (s.setI a).cfg = s.cfg := rfl
@[simp] theorem State.setI_inputs (s : State) (a : Word) : (s.setI a).inputs = s.inputs := rfl
@[simp] theorem State.setI_inputNo (s : State) (a : Word) : (s.setI a).inputNo = s.inputNo := rfl
@[simp] theorem State.setI_events (s : State) (a : Word) : (s.setI a).events = s.events := rfl

/-! ### setPc -/

@[simp] theorem State.setPc_v (s : State) (a : Word) : (s.setPc a).v = s.v := rfl
@[simp] theorem State.setPc_i (s : State) (a : Word) : (s.setPc a).i = s.i := rfl
@[simp] theorem State.setPc_pc (s : State) (a : Word) : (s.setPc a).pc = a := rfl
@[simp] theorem State.setPc_stack (s : State) (a : Word) : (s.setPc a).stack = s.stack := rfl
@[simp] theorem State.setPc_dt (s : State) (a : Word) : (s.setPc a).dt = s.dt := rfl
@[simp] theorem State.setPc_st (s : State) (a : Word) : (s.setPc a).st = s.st := rfl
@[simp] theorem State.setPc_mem (s : State) (a : Word) : (s.setPc a).mem = s.mem := rfl
@[simp] theorem State.setPc_fb (s : State) (a : Word) : (s.setPc a).fb = s.fb := rfl
@[simp] theorem State.setPc_mode (s : State) (a : Word) : (s.setPc a).mode = s.mode := rfl
@[simp] theorem State.setPc_last (s : State) (a : Word) : (s.setPc a).last = s.last := rfl
@[simp] theorem State.setPc_cfg (s : State) (a : Word) : (s.setPc a).cfg = s.cfg := rfl
@[simp] theorem State.setPc_inputs (s : State) (a : Word) : (s.setPc a).inputs = s.inputs := rfl
@[simp] theorem State.setPc_inputNo (s : State) (a : Word) : (s.setPc a).inputNo = s.inputNo := rfl
@[simp] theorem State.setPc_events (s : State) (a : Word) : (s.setPc a).events = s.events := rfl

/-! ### bumpPc -/

@[simp] theorem State.bumpPc_v (s : State) : (s.bumpPc).v = s.v := rfl
@[simp] theorem State.bumpPc_i (s : State) : (s.bumpPc).i = s.i := rfl
@[simp] theorem State.bumpPc_pc (s : State) : (s.bumpPc).pc = s.pc + 2 := rfl
@[simp] theorem State.bumpPc_stack (s : State) : (s.bumpPc).stack = s.stack := rfl
@[simp] theorem State.bumpPc_dt (s : State) : (s.bumpPc).dt = s.dt := rfl
@[simp] theorem State.bumpPc_st (s : State) : (s.bumpPc).st = s.st := rfl
@[simp] theorem State.bumpPc_mem (s : State) : (s.bumpPc).mem = s.mem := rfl
@[simp] theorem State.bumpPc_fb (s : State) : (s.bumpPc).fb = s.fb := rfl
@[simp] theorem State.bumpPc_mode (s : State) : (s.bumpPc).mode = s.mode := rfl
@[simp] theorem State.bumpPc_last (s : State) : (s.bumpPc).last = s.last := rfl
@[simp] theorem State.bumpPc_cfg (s : State) : (s.bumpPc).cfg = s.cfg := rfl
@[simp] theorem State.bumpPc_inputs (s : State) : (s.bumpPc).inputs = s.inputs := rfl
@[simp] theorem State.bumpPc_inputNo (s : State) : (s.bumpPc).inputNo = s.inputNo := rfl
@[simp] theorem State.bumpPc_events (s : State) : (s.bumpPc).events = s.events := rfl

/-! ### advance -/

@[simp] theorem State.advance_v (s : State) : (s.advance).v = s.v := rfl
@[simp] theorem State.advance_i (s : State) : (s.advance).i = s.i := rfl
@[simp] theorem State.advance_pc (s : State) : (s.advance).pc = s.pc + 2 := rfl
@[simp] theorem State.advance_stack (s : State) : (s.advance).stack = s.stack := rfl
@[simp] theorem State.advance_dt (s : State) : (s.advance).dt = s.dt := rfl
@[simp] theorem State.advance_st (s : State) : (s.advance).st = s.st := rfl
@[simp] theorem State.advance_mem (s : State) : (s.advance).mem = s.mem := rfl
@[simp] theorem State.advance_fb (s : State) : (s.advance).fb = s.fb := rfl
@[simp] theorem State.advance_mode (s : State) : (s.advance).mode = s.mode := rfl
@[simp] theorem State.advance_last (s : State) : (s.advance).last = s.last := rfl
@[simp] theorem State.advance_cfg (s : State) : (s.advance).cfg = s.cfg := rfl
@[simp] theorem State.advance_inputs (s : State) : (s.advance).inputs = s.inputs := rfl
@[simp] theorem State.advance_inputNo (s : State) : (s.advance).inputNo = s.inputNo := rfl
@[simp] theorem State.advance_events (s : State) : (s.advance).events = s.events := rfl

/-! ### push -/

@[simp] theorem State.push_v (s : State) (a : Word) : (s.push a).v = s.v := rfl
@[simp] theorem State.push_i (s : State) (a : Word) : (s.push a).i = s.i := rfl
@[simp] theorem State.push_pc (s : State) (a : Word) : (s.push a).pc = s.pc := rfl
@[simp] theorem State.push_stack (s : State) (a : Word) : (s.push a).stack = a :: s.stack := rfl
@[simp] theorem State.push_dt (s : State) (a : Word) : (s.push a).dt = s.dt := rfl
@[simp] theorem State.push_st (s : State) (a : Word) : (s.push a).st = s.st := rfl
@[simp] theorem State.push_mem (s : State) (a : Word) : (s.push a).mem = s.mem := rfl
@[simp] theorem State.push_fb (s : State) (a : Word) : (s.push a).fb = s.fb := rfl
@[simp] theorem State.push_mode (s : State) (a : Word) : (s.push a).mode = s.mode := rfl
@[simp] theorem State.push_last (s : State) (a : Word) : (s.push a).last = s.last := rfl
@[simp] theorem State.push_cfg (s : State) (a : Word) : (s.push a).cfg = s.cfg := rfl
@[simp] theorem State.push_inputs (s : State) (a : Word) : (s.push a).inputs = s.inputs := rfl
@[simp] theorem State.push_inputNo (s : State) (a : Word) : (s.push a).inputNo = s.inputNo := rfl
@[simp] theorem State.push_events (s : State) (a : Word) : (s.push a).events = s.events := rfl

/-! ### setDt -/

@[simp] theorem State.setDt_v (s : State) (b : Byte) : (s.setDt b).v = s.v := rfl
@[simp] theorem State.setDt_i (s : State) (b : Byte) : (s.setDt b).i = s.i := rfl
@[simp] theorem State.setDt_pc (s : State) (b : Byte) : (s.setDt b).pc = s.pc := rfl
@[simp] theorem State.setDt_stack (s : State) (b : Byte) : (s.setDt b).stack = s.stack := rfl
@[simp] theorem State.setDt_dt (s : State) (b : Byte) : (s.setDt b).dt = b := rfl
@[simp] theorem State.setDt_st (s : State) (b : Byte) : (s.setDt b).st = s.st := rfl
@[simp] theorem State.setDt_mem (s : State) (b : Byte) : (s.setDt b).mem = s.mem := rfl
@[simp] theorem State.setDt_fb (s : State) (b : Byte) : (s.setDt b).fb = s.fb := rfl
@[simp] theorem State.setDt_mode (s : State) (b : Byte) : (s.setDt b).mode = s.mode := rfl
@[simp] theorem State.setDt_last (s : State) (b : Byte) : (s.setDt b).last = s.last := rfl
@[simp] theorem State.setDt_cfg (s : State) (b : Byte) : (s.setDt b).cfg = s.cfg := rfl
@[simp] theorem State.setDt_inputs (s : State) (b : Byte) : (s.setDt b).inputs = s.inputs := rfl
@[simp] theorem State.setDt_inputNo (s : State) (b : Byte) : (s.setDt b).inputNo = s.inputNo := rfl
@[simp] theorem State.setDt_events (s : State) (b : Byte) : (s.setDt b).events = s.events := rfl

/-! ### setSt -/

@[simp] theorem State.setSt_v (s : State) (b : Byte) : (s.setSt b).v = s.v := rfl
@[simp] theorem State.setSt_i (s : State) (b : Byte) : (s.setSt b).i = s.i := rfl
@[simp] theorem State.setSt_pc (s : State) (b : Byte) : (s.setSt b).pc = s.pc := rfl
@[simp] theorem State.setSt_stack (s : State) (b : Byte) : (s.setSt b).stack = s.stack := rfl
@[simp] theorem State.setSt_dt (s : State) (b : Byte) : (s.setSt b).dt = s.dt := rfl
@[simp] theorem State.setSt_st (s : State) (b : Byte) : (s.setSt b).st = b := rfl
@[simp] theorem State.setSt_mem (s : State) (b : Byte) : (s.setSt b).mem = s.mem := rfl
@[simp] theorem State.setSt_fb (s : State) (b : Byte) : (s.setSt b).fb = s.fb := rfl
@[simp] theorem State.setSt_mode (s : State) (b : Byte) : (s.setSt b).mode = s.mode := rfl
@[simp] theorem State.setSt_last (s : State) (b : Byte) : (s.setSt b).last = s.last := rfl
@[simp] theorem State.setSt_cfg (s : State) (b : Byte) : (s.setSt b).cfg = s.cfg := rfl
@[simp] theorem State.setSt_inputs (s : State) (b : Byte) : (s.setSt b).inputs = s.inputs := rfl
@[simp] theorem State.setSt_inputNo (s : State) (b : Byte) : (s.setSt b).inputNo = s.inputNo := rfl
@[simp] theorem State.setSt_events (s : State) (b : Byte) : (s.setSt b).events = s.events := rfl

/-! ### setFb -/

@[simp] theorem State.setFb_v (s : State) (f : Screen) : (s.setFb f).v = s.v := rfl
@[simp] theorem State.setFb_i (s : State) (f : Screen) : (s.setFb f).i = s.i := rfl
@[simp] theorem State.setFb_pc (s : State) (f : Screen) : (s.setFb f).pc = s.pc := rfl
@[simp] theorem State.setFb_stack (s : State) (f : Screen) : (s.setFb f).stack = s.stack := rfl
@[simp] theorem State.setFb_dt (s : State) (f : Screen) : (s.setFb f).dt = s.dt := rfl
@[simp] theorem State.setFb_st (s : State) (f : Screen) : (s.setFb f).st = s.st := rfl
@[simp] theorem State.setFb_mem (s : State) (f : Screen) : (s.setFb f).mem = s.mem := rfl
@[simp] theorem State.setFb_fb (s : State) (f : Screen) : (s.setFb f).fb = f := rfl
@[simp] theorem State.setFb_mode (s : State) (f : Screen) : (s.setFb f).mode = s.mode := rfl
@[simp] theorem State.setFb_last (s : State) (f : Screen) : (s.setFb f).last = s.last := rfl
@[simp] theorem State.setFb_cfg (s : State) (f : Screen) : (s.setFb f).cfg = s.cfg := rfl
@[simp] theorem State.setFb_inputs (s : State) (f : Screen) : (s.setFb f).inputs = s.inputs := rfl
@[simp] theorem State.setFb_inputNo (s : State) (f : Screen) : (s.setFb f).inputNo = s.inputNo := rfl
@[simp] theorem State.setFb_events (s : State) (f : Screen) : (s.setFb f).events = s.events := rfl

/-! ### emit -/

@[simp] theorem State.emit_v (s : State) (es : List DisplayEvent) : (s.emit es).v = s.v := rfl
@[simp] theorem State.emit_i (s : State) (es : List DisplayEvent) : (s.emit es).i = s.i := rfl
@[simp] theorem State.emit_pc (s : State) (es : List DisplayEvent) : (s.emit es).pc = s.pc := rfl
@[simp] theorem State.emit_stack (s : State) (es : List DisplayEvent) : (s.emit es).stack = s.stack := rfl
@[simp] theorem State.emit_dt (s : State) (es : List DisplayEvent) : (s.emit es).dt = s.dt := rfl
@[simp] theorem State.emit_st (s : State) (es : List DisplayEvent) : (s.emit es).st = s.st := rfl
@[simp] theorem State.emit_mem (s : State) (es : List DisplayEvent) : (s.emit es).mem = s.mem := rfl
@[simp] theorem State.emit_fb (s : State) (es : List DisplayEvent) : (s.emit es).fb = s.fb := rfl
@[simp] theorem State.emit_mode (s : State) (es : List DisplayEvent) : (s.emit es).mode = s.mode := rfl
@[simp] theorem State.emit_last (s : State) (es : List DisplayEvent) : (s.emit es).last = s.last := rfl
@[simp] theorem State.emit_cfg (s : State) (es : List DisplayEvent) : (s.emit es).cfg = s.cfg := rfl
@[simp] theorem State.emit_inputs (s : State) (es : List DisplayEvent) : (s.emit es).inputs = s.inputs := rfl
@[simp] theorem State.emit_inputNo (s : State) (es : List DisplayEvent) : (s.emit es).inputNo = s.inputNo := rfl
@[simp] theorem State.emit_events (s : State) (es : List DisplayEvent) : (s.emit es).events = s.events ++ es := rfl

/-! ### setMode -/

@[simp] theorem State.setMode_v (s : State) (m : Mode) : (s.setMode m).v = s.v := rfl
@[simp] theorem State.setMode_i (s : State) (m : Mode) : (s.setMode m).i = s.i := rfl
@[simp] theorem State.setMode_pc (s : State) (m : Mode) : (s.setMode m).pc = s.pc := rfl
@[simp] theorem State.setMode_stack (s : State) (m : Mode) : (s.setMode m).stack = s.stack := rfl
@[simp] theorem State.setMode_dt (s : State) (m : Mode) : (s.setMode m).dt = s.dt := rfl
@[simp] theorem State.setMode_st (s : State) (m : Mode) : (s.setMode m).st = s.st := rfl
@[simp] theorem State.setMode_mem (s : State) (m : Mode) : (s.setMode m).mem = s.mem := rfl
@[simp] theorem State.setMode_fb (s : State) (m : Mode) : (s.setMode m).fb = s.fb := rfl
@[simp] theorem State.setMode_mode (s : State) (m : Mode) : (s.setMode m).mode = m := rfl
@[simp] theorem State.setMode_last (s : State) (m : Mode) : (s.setMode m).last = s.last := rfl
@[simp] theorem State.setMode_cfg (s : State) (m : Mode) : (s.setMode m).cfg = s.cfg := rfl
@[simp] theorem State.setMode_inputs (s : State) (m : Mode) : (s.setMode m).inputs = s.inputs := rfl
@[simp] theorem State.setMode_inputNo (s : State) (m : Mode) : (s.setMode m).inputNo = s.inputNo := rfl
@[simp] theorem State.setMode_events (s : State) (m : Mode) : (s.setMode m).events = s.events := rfl

/-! ### halt -/

@[simp] theorem State.halt_v (s : State) (r : HaltReason) : (s.halt r).v = s.v := rfl
@[simp] theorem State.halt_i (s : State) (r : HaltReason) : (s.halt r).i = s.i := rfl
@[simp] theorem State.halt_pc (s : State) (r : HaltReason) : (s.halt r).pc = s.pc := rfl
@[simp] theorem State.halt_stack (s : State) (r : HaltReason) : (s.halt r).stack = s.stack := rfl
@[simp] theorem State.halt_dt (s : State) (r : HaltReason) : (s.halt r).dt = s.dt := rfl
@[simp] theorem State.halt_st (s : State) (r : HaltReason) : (s.halt r).st = s.st := rfl
@[simp] theorem State.halt_mem (s : State) (r : HaltReason) : (s.halt r).mem = s.mem := rfl
@[simp] theorem State.halt_fb (s : State) (r : HaltReason) : (s.halt r).fb = s.fb := rfl
@[simp] theorem State.halt_mode (s : State) (r : HaltReason) : (s.halt r).mode = .halted r := rfl
@[simp] theorem State.halt_last (s : State) (r : HaltReason) : (s.halt r).last = s.last := rfl
@[simp] theorem State.halt_cfg (s : State) (r : HaltReason) : (s.halt r).cfg = s.cfg := rfl
@[simp] theorem State.halt_inputs (s : State) (r : HaltReason) : (s.halt r).inputs = s.inputs := rfl
@[simp] theorem State.halt_inputNo (s : State) (r : HaltReason) : (s.halt r).inputNo = s.inputNo := rfl
@[simp] theorem State.halt_events (s : State) (r : HaltReason) : (s.halt r).events = s.events := rfl

/-! ### raise -/

@[simp] theorem State.raise_v (s : State) (k : FatalKind) (w : Word) (n : FatalInfo) : (s.raise k w n).v = s.v := rfl
@[simp] theorem State.raise_i (s : State) (k : FatalKind) (w : Word) (n : FatalInfo) : (s.raise k w n).i = s.i := rfl
@[simp] theorem State.raise_pc (s : State) (k : FatalKind) (w : Word) (n : FatalInfo) : (s.raise k w n).pc = s.pc := rfl
@[simp] theorem State.raise_stack (s : State) (k : FatalKind) (w : Word) (n : FatalInfo) : (s.raise k w n).stack = s.stack := rfl
@[simp] theorem State.raise_dt (s : State) (k : FatalKind) (w : Word) (n : FatalInfo) : (s.raise k w n).dt = s.dt := rfl
@[simp] theorem State.raise_st (s : State) (k : FatalKind) (w : Word) (n : FatalInfo) : (s.raise k w n).st = s.st := rfl
@[simp] theorem State.raise_mem (s : State) (k : FatalKind) (w : Word) (n : FatalInfo) : (s.raise k w n).mem = s.mem := rfl
@[simp] theorem State.raise_fb (s : State) (k : FatalKind) (w : Word) (n : FatalInfo) : (s.raise k w n).fb = s.fb := rfl
@[simp] theorem State.raise_mode (s : State) (k : FatalKind) (w : Word) (n : FatalInfo) : (s.raise k w n).mode = .halted (.fatal ⟨k, w, s.last, n⟩) := rfl
@[simp] theorem State.raise_last (s : State) (k : FatalKind) (w : Word) (n : FatalInfo) : (s.raise k w n).last = s.last := rfl
@[simp] theorem State.raise_cfg (s : State) (k : FatalKind) (w : Word) (n : FatalInfo) : (s.raise k w n).cfg = s.cfg := rfl
@[simp] theorem State.raise_inputs (s : State) (k : FatalKind) (w : Word) (n : FatalInfo) : (s.raise k w n).inputs = s.inputs := rfl
@[simp] theorem State.raise_inputNo (s : State) (k : FatalKind) (w : Word) (n : FatalInfo) : (s.raise k w n).inputNo = s.inputNo := rfl
@[simp] theorem State.raise_events (s : State) (k : FatalKind) (w : Word) (n : FatalInfo) : (s.raise k w n).events = s.events := rfl

/-! ### tick -/

@[simp] theorem State.tick_v (s : State) : (s.tick).v = s.v := rfl
@[simp] theorem State.tick_i (s : State) : (s.tick).i = s.i := rfl
@[simp] theorem State.tick_pc (s : State) : (s.tick).pc = s.pc := rfl
@[simp] theorem State.tick_stack (s : State) : (s.tick).stack = s.stack := rfl
@[simp] theorem State.tick_dt (s : State) : (s.tick).dt = tickDown s.dt := rfl
@[simp] theorem State.tick_st (s : State) : (s.tick).st = tickDown s.st := rfl
@[simp] theorem State.tick_mem (s : State) : (s.tick).mem = s.mem := rfl
@[simp] theorem State.tick_fb (s : State) : (s.tick).fb = s.fb := rfl
@[simp] theorem State.tick_mode (s : State) : (s.tick).mode = s.mode := rfl
@[simp] theorem State.tick_last (s : State) : (s.tick).last = s.last := rfl
@[simp] theorem State.tick_cfg (s : State) : (s.tick).cfg = s.cfg := rfl
@[simp] theorem State.tick_inputs (s : State) : (s.tick).inputs = s.inputs := rfl
@[simp] theorem State.tick_inputNo (s : State) : (s.tick).inputNo = s.inputNo := rfl
@[simp] theorem State.tick_events (s : State) : (s.tick).events = s.events := rfl

/-! ### retire -/

@[simp] theorem State.retire_v (s : State) (w : Word) : (s.retire w).v = s.v := rfl
@[simp] theorem State.retire_i (s : State) (w : Word) : (s.retire w).i = s.i := rfl
@[simp] theorem State.retire_pc (s : State) (w : Word) : (s.retire w).pc = s.pc := rfl
@[simp] theorem State.retire_stack (s : State) (w : Word) : (s.retire w).stack = s.stack := rfl
@[simp] theorem State.retire_dt (s : State) (w : Word) : (s.retire w).dt = s.dt := rfl
@[simp] theorem State.retire_st (s : State) (w : Word) : (s.retire w).st = s.st := rfl
@[simp] theorem State.retire_mem (s : State) (w : Word) : (s.retire w).mem = s.mem := rfl
@[simp] theorem State.retire_fb (s : State) (w : Word) : (s.retire w).fb = s.fb := rfl
@[simp] theorem State.retire_mode (s : State) (w : Word) : (s.retire w).mode = s.mode := rfl
@[simp] theorem State.retire_last (s : State) (w : Word) : (s.retire w).last = some w := rfl
@[simp] theorem State.retire_cfg (s : State) (w : Word) : (s.retire w).cfg = s.cfg := rfl
@[simp] theorem State.retire_inputs (s : State) (w : Word) : (s.retire w).inputs = s.inputs := rfl
@[simp] theorem State.retire_inputNo (s : State) (w : Word) : (s.retire w).inputNo = s.inputNo := rfl
@[simp] theorem State.retire_events (s : State) (w : Word) : (s.retire w).events = s.events := rfl

/-! ### nextInput -/

@[simp] theorem State.nextInput_v (s : State) : (s.nextInput).v = s.v := rfl
@[simp] theorem State.nextInput_i (s : State) : (s.nextInput).i = s.i := rfl
@[simp] theorem State.nextInput_pc (s : State) : (s.nextInput).pc = s.pc := rfl
@[simp] theorem State.nextInput_stack (s : State) : (s.nextInput).stack = s.stack := rfl
@[simp] theorem State.nextInput_dt (s : State) : (s.nextInput).dt = s.dt := rfl
@[simp] theorem State.nextInput_st (s : State) : (s.nextInput).st = s.st := rfl
@[simp] theorem State.nextInput_mem (s : State) : (s.nextInput).mem = s.mem := rfl
@[simp] theorem State.nextInput_fb (s : State) : (s.nextInput).fb = s.fb := rfl
@[simp] theorem State.nextInput_mode (s : State) : (s.nextInput).mode = s.mode := rfl
@[simp] theorem State.nextInput_last (s : State) : (s.nextInput).last = s.last := rfl
@[simp] theorem State.nextInput_cfg (s : State) : (s.nextInput).cfg = s.cfg := rfl
@[simp] theorem State.nextInput_inputs (s : State) : (s.nextInput).inputs = s.inputs.tail := rfl
@[simp] theorem State.nextInput_inputNo (s : State) : (s.nextInput).inputNo = s.inputNo + 1 := rfl
@[simp] theorem State.nextInput_events (s : State) : (s.nextInput).events = s.events := rfl

/-! ### writeByte -/

@[simp] theorem State.writeByte_v (s : State) (a : Nat) (b : Byte) : (s.writeByte a b).v = s.v := rfl
@[simp] theorem State.writeByte_i (s : State) (a : Nat) (b : Byte) : (s.writeByte a b).i = s.i := rfl
@[simp] theorem State.writeByte_pc (s : State) (a : Nat) (b : Byte) : (s.writeByte a b).pc = s.pc := rfl
@[simp] theorem State.writeByte_stack (s : State) (a : Nat) (b : Byte) : (s.writeByte a b).stack = s.stack := rfl
@[simp] theorem State.writeByte_dt (s : State) (a : Nat) (b : Byte) : (s.writeByte a b).dt = s.dt := rfl
@[simp] theorem State.writeByte_st (s : State) (a : Nat) (b : Byte) : (s.writeByte a b).st = s.st := rfl
@[simp] theorem State.writeByte_mem (s : State) (a : Nat) (b : Byte) : (s.writeByte a b).mem = Memory.write s.cfg.font s.mem a b := rfl
@[simp] theorem State.writeByte_fb (s : State) (a : Nat) (b : Byte) : (s.writeByte a b).fb = s.fb := rfl
@[simp] theorem State.writeByte_mode (s : State) (a : Nat) (b : Byte) : (s.writeByte a b).mode = s.mode := rfl
@[simp] theorem State.writeByte_last (s : State) (a : Nat) (b : Byte) : (s.writeByte a b).last = s.last := rfl
@[simp] theorem State.writeByte_cfg (s : State) (a : Nat) (b : Byte) : (s.writeByte a b).cfg = s.cfg := rfl
@[simp] theorem State.writeByte_inputs (s : State) (a : Nat) (b : Byte) : (s.writeByte a b).inputs = s.inputs := rfl
@[simp] theorem State.writeByte_inputNo (s : State) (a : Nat) (b : Byte) : (s.writeByte a b).inputNo = s.inputNo := rfl
@[simp] theorem State.writeByte_events (s : State) (a : Nat) (b : Byte) : (s.writeByte a b).events = s.events := rfl

/-! ### The accessors -/

@[simp] theorem State.setI_getV (s : State) (a : Word) (y : Nibble) : (s.setI a).getV y = s.getV y := rfl
@[simp] theorem State.setPc_getV (s : State) (a : Word) (y : Nibble) : (s.setPc a).getV y = s.getV y := rfl
@[simp] theorem State.bumpPc_getV (s : State) (y : Nibble) : (s.bumpPc).getV y = s.getV y := rfl
@[simp] theorem State.advance_getV (s : State) (y : Nibble) : (s.advance).getV y = s.getV y := rfl
@[simp] theorem State.push_getV (s : State) (a : Word) (y : Nibble) : (s.push a).getV y = s.getV y := rfl
@[simp] theorem State.setDt_getV (s : State) (b : Byte) (y : Nibble) : (s.setDt b).getV y = s.getV y := rfl
@[simp] theorem State.setSt_getV (s : State) (b : Byte) (y : Nibble) : (s.setSt b).getV y = s.getV y := rfl
@[simp] theorem State.setFb_getV (s : State) (f : Screen) (y : Nibble) : (s.setFb f).getV y = s.getV y := rfl
@[simp] theorem State.emit_getV (s : State) (es : List DisplayEvent) (y : Nibble) : (s.emit es).getV y = s.getV y := rfl
@[simp] theorem State.setMode_getV (s : State) (m : Mode) (y : Nibble) : (s.setMode m).getV y = s.getV y := rfl
@[simp] theorem State.halt_getV (s : State) (r : HaltReason) (y : Nibble) : (s.halt r).getV y = s.getV y := rfl
@[simp] theorem State.raise_getV (s : State) (k : FatalKind) (w : Word) (n : FatalInfo) (y : Nibble) : (s.raise k w n).getV y = s.getV y := rfl
@[simp] theorem State.tick_getV (s : State) (y : Nibble) : (s.tick).getV y = s.getV y := rfl
@[simp] theorem State.retire_getV (s : State) (w : Word) (y : Nibble) : (s.retire w).getV y = s.getV y := rfl
@[simp] theorem State.nextInput_getV (s : State) (y : Nibble) : (s.nextInput).getV y = s.getV y := rfl
@[simp] theorem State.writeByte_getV (s : State) (a : Nat) (b : Byte) (y : Nibble) : (s.writeByte a b).getV y = s.getV y := rfl

@[simp] theorem State.setV_readByte (s : State) (x : Nibble) (b : Byte) (k : Nat) : (s.setV x b).readByte k = s.readByte k := rfl
@[simp] theorem State.setFlag_readByte (s : State) (f : Bool) (k : Nat) : (s.setFlag f).readByte k = s.readByte k := rfl
@[simp] theorem State.loadBlock_readByte (s : State) (x : Nibble) (a : Nat) (k : Nat) : (s.loadBlock x a).readByte k = s.readByte k := rfl
@[simp] theorem State.setI_readByte (s : State) (a : Word) (k : Nat) : (s.setI a).readByte k = s.readByte k := rfl
@[simp] theorem State.setPc_readByte (s : State) (a : Word) (k : Nat) : (s.setPc a).readByte k = s.readByte k := rfl
@[simp] theorem State.bumpPc_readByte (s : State) (k : Nat) : (s.bumpPc).readByte k = s.readByte k := rfl
@[simp] theorem State.advance_readByte (s : State) (k : Nat) : (s.advance).readByte k = s.readByte k := rfl
@[simp] theorem State.push_readByte (s : State) (a : Word) (k : Nat) : (s.push a).readByte k = s.readByte k := rfl
@[simp] theorem State.setDt_readByte (s : State) (b : Byte) (k : Nat) : (s.setDt b).readByte k = s.readByte k := rfl
@[simp] theorem State.setSt_readByte (s : State) (b : Byte) (k : Nat) : (s.setSt b).readByte k = s.readByte k := rfl
@[simp] theorem State.setFb_readByte (s : State) (f : Screen) (k : Nat) : (s.setFb f).readByte k = s.readByte k := rfl
@[simp] theorem State.emit_readByte (s : State) (es : List DisplayEvent) (k : Nat) : (s.emit es).readByte k = s.readByte k := rfl
@[simp] theorem State.setMode_readByte (s : State) (m : Mode) (k : Nat) : (s.setMode m).readByte k = s.readByte k := rfl
@[simp] theorem State.halt_readByte (s : State) (r : HaltReason) (k : Nat) : (s.halt r).readByte k = s.readByte k := rfl
@[simp] theorem State.raise_readByte (s : State) (k : FatalKind) (w : Word) (n : FatalInfo) (j : Nat) : (s.raise k w n).readByte j = s.readByte j := rfl
@[simp] theorem State.tick_readByte (s : State) (k : Nat) : (s.tick).readByte k = s.readByte k := rfl
@[simp] theorem State.retire_readByte (s : State) (w : Word) (k : Nat) : (s.retire w).readByte k = s.readByte k := rfl
@[simp] theorem State.nextInput_readByte (s : State) (k : Nat) : (s.nextInput).readByte k = s.readByte k := rfl

@[simp] theorem State.setV_pixel (s : State) (x : Nibble) (b : Byte) (c r : Nat) : (s.setV x b).pixel c r = s.pixel c r := rfl
@[simp] theorem State.setFlag_pixel (s : State) (f : Bool) (c r : Nat) : (s.setFlag f).pixel c r = s.pixel c r := rfl
@[simp] theorem State.loadBlock_pixel (s : State) (x : Nibble) (a : Nat) (c r : Nat) : (s.loadBlock x a).pixel c r = s.pixel c r := rfl
@[simp] theorem State.setI_pixel (s : State) (a : Word) (c r : Nat) : (s.setI a).pixel c r = s.pixel c r := rfl
@[simp] theorem State.setPc_pixel (s : State) (a : Word) (c r : Nat) : (s.setPc a).pixel c r = s.pixel c r := rfl
@[simp] theorem State.bumpPc_pixel (s : State) (c r : Nat) : (s.bumpPc).pixel c r = s.pixel c r := rfl
@[simp] theorem State.advance_pixel (s : State) (c r : Nat) : (s.advance).pixel c r = s.pixel c r := rfl
@[simp] theorem State.push_pixel (s : State) (a : Word) (c r : Nat) : (s.push a).pixel c r = s.pixel c r := rfl
@[simp] theorem State.setDt_pixel (s : State) (b : Byte) (c r : Nat) : (s.setDt b).pixel c r = s.pixel c r := rfl
@[simp] theorem State.setSt_pixel (s : State) (b : Byte) (c r : Nat) : (s.setSt b).pixel c r = s.pixel c r := rfl
@[simp] theorem State.emit_pixel (s : State) (es : List DisplayEvent) (c r : Nat) : (s.emit es).pixel c r = s.pixel c r := rfl
@[simp] theorem State.setMode_pixel (s : State) (m : Mode) (c r : Nat) : (s.setMode m).pixel c r = s.pixel c r := rfl
@[simp] theorem State.halt_pixel (s : State) (r : HaltReason) (col row : Nat) : (s.halt r).pixel col row = s.pixel col row := rfl
@[simp] theorem State.raise_pixel (s : State) (k : FatalKind) (w : Word) (n : FatalInfo) (c r : Nat) : (s.raise k w n).pixel c r = s.pixel c r := rfl
@[simp] theorem State.tick_pixel (s : State) (c r : Nat) : (s.tick).pixel c r = s.pixel c r := rfl
@[simp] theorem State.retire_pixel (s : State) (w : Word) (c r : Nat) : (s.retire w).pixel c r = s.pixel c r := rfl
@[simp] theorem State.nextInput_pixel (s : State) (c r : Nat) : (s.nextInput).pixel c r = s.pixel c r := rfl
@[simp] theorem State.writeByte_pixel (s : State) (a : Nat) (b : Byte) (c r : Nat) : (s.writeByte a b).pixel c r = s.pixel c r := rfl

@[simp] theorem State.setV_input (s : State) (x : Nibble) (b : Byte) : (s.setV x b).input = s.input := rfl
@[simp] theorem State.setFlag_input (s : State) (f : Bool) : (s.setFlag f).input = s.input := rfl
@[simp] theorem State.loadBlock_input (s : State) (x : Nibble) (a : Nat) : (s.loadBlock x a).input = s.input := rfl
@[simp] theorem State.setI_input (s : State) (a : Word) : (s.setI a).input = s.input := rfl
@[simp] theorem State.setPc_input (s : State) (a : Word) : (s.setPc a).input = s.input := rfl
@[simp] theorem State.bumpPc_input (s : State) : (s.bumpPc).input = s.input := rfl
@[simp] theorem State.advance_input (s : State) : (s.advance).input = s.input := rfl
@[simp] theorem State.push_input (s : State) (a : Word) : (s.push a).input = s.input := rfl
@[simp] theorem State.setDt_input (s : State) (b : Byte) : (s.setDt b).input = s.input := rfl
@[simp] theorem State.setSt_input (s : State) (b : Byte) : (s.setSt b).input = s.input := rfl
@[simp] theorem State.setFb_input (s : State) (f : Screen) : (s.setFb f).input = s.input := rfl
@[simp] theorem State.emit_input (s : State) (es : List DisplayEvent) : (s.emit es).input = s.input := rfl
@[simp] theorem State.setMode_input (s : State) (m : Mode) : (s.setMode m).input = s.input := rfl
@[simp] theorem State.halt_input (s : State) (r : HaltReason) : (s.halt r).input = s.input := rfl
@[simp] theorem State.raise_input (s : State) (k : FatalKind) (w : Word) (n : FatalInfo) : (s.raise k w n).input = s.input := rfl
@[simp] theorem State.tick_input (s : State) : (s.tick).input = s.input := rfl
@[simp] theorem State.retire_input (s : State) (w : Word) : (s.retire w).input = s.input := rfl
@[simp] theorem State.writeByte_input (s : State) (a : Nat) (b : Byte) : (s.writeByte a b).input = s.input := rfl

end Sys2Proof.Machine
end

