-- ==== Sys2Proof/Laws/Screen.lean ====
section
/-! SUPPORT. The framebuffer: a pixel after a write, screens equal by their pixels, the blank screen. -/

namespace Sys2Proof.Machine

/-- A pixel written on the grid holds the value; every other pixel is as before. -/
theorem Screen.get_put (f : Screen) (c r c' r' : Nat) (b : Bool) :
    Screen.get (Screen.put f c r b) c' r' = if c' = c ∧ r' = r ∧ c < 64 ∧ r < 32 then b else Screen.get f c' r' := by
  unfold Screen.put
  by_cases hr : r < 32
  · by_cases hc : c < 64
    · rw [dif_pos hr, dif_pos hc]
      unfold Screen.get
      by_cases hr' : r' < 32
      · by_cases hc' : c' < 64
        · by_cases h1 : r = r' <;> by_cases h2 : c = c' <;> simp_all <;> omega
        · simp only [hc', hr', dif_pos, dif_neg, not_false_eq_true]
          rw [if_neg (by omega)]
      · simp only [hr', dif_neg, not_false_eq_true]
        rw [if_neg (by omega)]
    · simp [hr, hc]
  · simp [hr]

@[simp] theorem Screen.get_blank (c r : Nat) : Screen.get Screen.blank c r = false := by
  unfold Screen.get Screen.blank; split <;> simp

/-- Off the grid every pixel reads off. -/
theorem Screen.get_off (f : Screen) (c r : Nat) (h : 64 ≤ c ∨ 32 ≤ r) : Screen.get f c r = false := by
  unfold Screen.get
  split
  · split
    · omega
    · rfl
  · rfl

/-- Screens that agree on every pixel of the grid are equal. -/
theorem Screen.ext_get (f g : Screen) (h : ∀ c r, c < 64 → r < 32 → Screen.get f c r = Screen.get g c r) : f = g := by
  refine Vector.ext fun r hr => Vector.ext fun c hc => ?_
  simpa [Screen.get, hr, hc] using h c r hc hr

end Sys2Proof.Machine
end

