-- ==== Sys2Proof/Laws/Draw.lean ====
section
/-! SUPPORT. The blit: a draw toggles the present targets of the sprite's 1 bits one after another, and what that does to the pixels, the collision flag and the reports. -/

namespace Sys2Proof.Machine

/-- One cell toggled: what a 1 bit does to its target. -/
def toggleCell (t : Nat × Nat) (bl : Blit) : Blit where
  screen := Screen.put bl.screen t.1 t.2 (!Screen.get bl.screen t.1 t.2)
  collision := bl.collision || Screen.get bl.screen t.1 t.2
  changed := bl.changed ++ [.cell t.1 t.2 (!Screen.get bl.screen t.1 t.2)]

/-- The present targets of the 1 bits of one row, left to right. -/
def rowCells (p : EdgePolicy) (c r : Nat) : List Bool → List (Nat × Nat)
  | [] => []
  | bit :: bits => (if bit then (spriteTarget p c r).toList else []) ++ rowCells p (c + 1) r bits

/-- The present targets of the 1 bits of a sprite, in loop order. -/
def spriteCells (p : EdgePolicy) (c r : Nat) : List Byte → List (Nat × Nat)
  | [] => []
  | row :: rows => rowCells p c r (bitsMsb row) ++ spriteCells p c (r + 1) rows

theorem Screen.put_get (f : Screen) (c r : Nat) : Screen.put f c r (Screen.get f c r) = f :=
  Screen.ext_get _ _ fun c' r' _ _ => by rw [Screen.get_put]; split <;> simp_all

/-- A 0 bit changes nothing; a 1 bit toggles its target, if it is present. -/
theorem plotBit_eq (p : EdgePolicy) (c r : Nat) (bit : Bool) (bl : Blit) :
    plotBit p c r bit bl = (if bit then (spriteTarget p c r).toList else []).foldl (fun b t => toggleCell t b) bl := by
  unfold plotBit
  cases h : spriteTarget p c r with
  | none => simp
  | some t =>
    cases bit
    · simp [collides, Screen.put_get]
    · simp [toggleCell, collides]

theorem plotRow_eq (p : EdgePolicy) (c r : Nat) (bits : List Bool) (bl : Blit) :
    plotRow p c r bits bl = (rowCells p c r bits).foldl (fun b t => toggleCell t b) bl := by
  induction bits generalizing c bl with
  | nil => rfl
  | cons bit bits ih => rw [plotRow, ih, rowCells, List.foldl_append, plotBit_eq]

theorem plotRows_eq (p : EdgePolicy) (c r : Nat) (rows : List Byte) (bl : Blit) :
    plotRows p c r rows bl = (spriteCells p c r rows).foldl (fun b t => toggleCell t b) bl := by
  induction rows generalizing r bl with
  | nil => rfl
  | cons row rows ih => rw [plotRows, ih, spriteCells, List.foldl_append, plotRow_eq]

/-- What toggling distinct cells of the grid does: to every pixel, to the collision flag, and to the reports. -/
theorem toggleCells_spec (ts : List (Nat × Nat)) (bl : Blit) (hn : ts.Nodup) (hg : ∀ t ∈ ts, t.1 < 64 ∧ t.2 < 32) :
    (∀ c r, Screen.get (ts.foldl (fun b t => toggleCell t b) bl).screen c r = (Screen.get bl.screen c r ^^ decide ((c, r) ∈ ts))) ∧
    ((ts.foldl (fun b t => toggleCell t b) bl).collision = (bl.collision || ts.any fun t => Screen.get bl.screen t.1 t.2)) ∧
    ((ts.foldl (fun b t => toggleCell t b) bl).changed =
      bl.changed ++ ts.map fun t => .cell t.1 t.2 (!Screen.get bl.screen t.1 t.2)) := by
  induction ts generalizing bl with
  | nil => simp
  | cons t ts ih =>
    have ht := hg t (by simp)
    rw [List.nodup_cons] at hn
    obtain ⟨h1, h2, h3⟩ := ih (toggleCell t bl) hn.2 fun u hu => hg u (by simp [hu])
    have hget : ∀ c r, Screen.get (toggleCell t bl).screen c r = (Screen.get bl.screen c r ^^ decide ((c, r) = t)) := by
      intro c r
      simp only [toggleCell, Screen.get_put]
      by_cases h : (c, r) = t
      · subst h; simp [ht]
      · have : ¬ (c = t.1 ∧ r = t.2 ∧ t.1 < 64 ∧ t.2 < 32) := fun e => h (Prod.ext e.1 e.2.1)
        rw [if_neg this]; simp [h]
    have hmem : ∀ u ∈ ts, Screen.get (toggleCell t bl).screen u.1 u.2 = Screen.get bl.screen u.1 u.2 := by
      intro u hu
      have : u ≠ t := fun e => hn.1 (e ▸ hu)
      rw [hget]; simp [this]
    refine ⟨fun c r => ?_, ?_, ?_⟩
    · rw [List.foldl_cons, h1, hget]
      by_cases ha : (c, r) = t
      · subst ha; simp [hn.1]
      · simp [ha]
    · rw [List.foldl_cons, h2]
      have : (ts.any fun t' => Screen.get (toggleCell t bl).screen t'.1 t'.2) = ts.any fun t' => Screen.get bl.screen t'.1 t'.2 := by
        rw [Bool.eq_iff_iff, List.any_eq_true, List.any_eq_true]
        exact ⟨fun ⟨u, hu, e⟩ => ⟨u, hu, hmem u hu ▸ e⟩, fun ⟨u, hu, e⟩ => ⟨u, hu, (hmem u hu).symm ▸ e⟩⟩
      rw [this, List.any_cons, ← Bool.or_assoc]; rfl
    · rw [List.foldl_cons, h3]
      have : (ts.map fun t' => DisplayEvent.cell t'.1 t'.2 (!Screen.get (toggleCell t bl).screen t'.1 t'.2)) =
          ts.map fun t' => .cell t'.1 t'.2 (!Screen.get bl.screen t'.1 t'.2) :=
        List.map_congr_left fun u hu => by rw [hmem u hu]
      rw [this, toggleCell, List.map_cons, List.append_assoc]; rfl

/-! ## Which cells a sprite has -/

theorem mem_rowCells (p : EdgePolicy) (c r : Nat) (bits : List Bool) (t : Nat × Nat) :
    t ∈ rowCells p c r bits ↔ ∃ b, bits[b]? = some true ∧ spriteTarget p (c + b) r = some t := by
  induction bits generalizing c with
  | nil => simp [rowCells]
  | cons bit bits ih =>
    rw [rowCells, List.mem_append, ih]
    constructor
    · rintro (h | ⟨b, hb, ht⟩)
      · cases bit <;> simp at h
        exact ⟨0, rfl, h⟩
      · exact ⟨b + 1, hb, by rw [← ht]; congr 1; omega⟩
    · rintro ⟨b, hb, ht⟩
      cases b with
      | zero => left; simp at hb; simp [hb, show spriteTarget p c r = some t from ht]
      | succ b => right; exact ⟨b, hb, by rw [← ht]; congr 1; omega⟩

theorem bitsMsb_getElem? (v : Byte) (b : Nat) : (bitsMsb v)[b]? = some true ↔ b < 8 ∧ spriteBit v b = true := by
  unfold bitsMsb spriteBit
  by_cases h : b < 8 <;> simp [h]

/-- A cell of the sprite is the present target of a 1 bit of it. -/
theorem mem_spriteCells (p : EdgePolicy) (c r : Nat) (rows : List Byte) (t : Nat × Nat) :
    t ∈ spriteCells p c r rows ↔
      ∃ j b v, rows[j]? = some v ∧ b < 8 ∧ spriteBit v b = true ∧ spriteTarget p (c + b) (r + j) = some t := by
  induction rows generalizing r with
  | nil => simp [spriteCells]
  | cons row rows ih =>
    rw [spriteCells, List.mem_append, mem_rowCells, ih]
    constructor
    · rintro (⟨b, hb, ht⟩ | ⟨j, b, v, hv, h8, hs, ht⟩)
      · rw [bitsMsb_getElem?] at hb
        exact ⟨0, b, row, rfl, hb.1, hb.2, ht⟩
      · exact ⟨j + 1, b, v, hv, h8, hs, by rw [← ht]; congr 1; omega⟩
    · rintro ⟨j, b, v, hv, h8, hs, ht⟩
      cases j with
      | zero =>
        obtain rfl : row = v := by simpa using hv
        exact .inl ⟨b, (bitsMsb_getElem? row b).2 ⟨h8, hs⟩, ht⟩
      | succ j => exact .inr ⟨j, b, v, hv, h8, hs, by rw [← ht]; congr 1; omega⟩

/-- Two bits of one sprite less than 64 columns and 32 rows apart never share a target (41 R135). -/
theorem spriteTarget_inj (p : EdgePolicy) (c r b j b' j' : Nat) (t : Nat × Nat) (hb : b < 64) (hb' : b' < 64) (hj : j < 32) (hj' : j' < 32)
    (h : spriteTarget p (c + b) (r + j) = some t) (h' : spriteTarget p (c + b') (r + j') = some t) : b = b' ∧ j = j' := by
  cases p with
  | fault =>
    obtain ⟨h1, h2⟩ := Prod.ext_iff.1 (Option.some.inj (h.trans h'.symm))
    simp only at h1 h2; omega
  | clip =>
    simp only [spriteTarget] at h h'
    split at h
    · split at h'
      · obtain ⟨h1, h2⟩ := Prod.ext_iff.1 (Option.some.inj (h.trans h'.symm))
        simp only at h1 h2; omega
      · simp at h'
    · simp at h
  | wrap =>
    obtain ⟨h1, h2⟩ := Prod.ext_iff.1 (Option.some.inj (h.trans h'.symm))
    simp only [fbWidth, fbHeight] at h1 h2; omega

theorem rowCells_nodup (p : EdgePolicy) (c r d : Nat) (bits : List Bool) (h : d + bits.length ≤ 64) :
    (rowCells p (c + d) r bits).Nodup := by
  induction bits generalizing d with
  | nil => simp [rowCells]
  | cons bit bits ih =>
    rw [List.length_cons] at h
    rw [rowCells, List.nodup_append]
    refine ⟨?_, Nat.add_assoc c d 1 ▸ ih (d + 1) (by omega), ?_⟩
    · cases bit <;> cases spriteTarget p (c + d) r <;> simp
    · intro t ht u hu e
      subst e
      obtain ⟨b, hb, hu⟩ := (mem_rowCells _ _ _ _ _).1 hu
      have hlt := (List.getElem?_eq_some_iff.1 hb).1
      cases bit <;> simp at ht
      have := spriteTarget_inj p c r d 0 (d + 1 + b) 0 t (by omega) (by omega) (by omega) (by omega) ht
        (by rw [← hu]; congr 1; omega)
      omega

/-- The cells of a sprite are pairwise distinct (41 R135). -/
theorem spriteCells_nodup (p : EdgePolicy) (c r e : Nat) (rows : List Byte) (h : e + rows.length ≤ 32) :
    (spriteCells p c (r + e) rows).Nodup := by
  induction rows generalizing e with
  | nil => simp [spriteCells]
  | cons row rows ih =>
    rw [List.length_cons] at h
    rw [spriteCells, List.nodup_append]
    refine ⟨rowCells_nodup p c (r + e) 0 _ (by simp [bitsMsb]), Nat.add_assoc r e 1 ▸ ih (e + 1) (by omega), ?_⟩
    intro t ht u hu e'
    subst e'
    obtain ⟨b, hb, ht⟩ := (mem_rowCells _ _ _ _ _).1 ht
    have hb8 := ((bitsMsb_getElem? _ _).1 hb).1
    obtain ⟨j, b', v, hv, h8, -, hu⟩ := (mem_spriteCells _ _ _ _ _).1 hu
    have hj := (List.getElem?_eq_some_iff.1 hv).1
    have := spriteTarget_inj p c r b e b' (e + 1 + j) t (by omega) (by omega) (by omega) (by omega) ht
      (by rw [← hu]; congr 1; omega)
    omega

/-- Where the edge check raises nothing, every cell of the sprite is on the grid (41 R136). -/
theorem spriteCells_onGrid (p : EdgePolicy) (cx cy : Nat) (rows : List Byte) (h : edgeViolation p cx cy rows.length = false) :
    ∀ t ∈ spriteCells p cx cy rows, t.1 < 64 ∧ t.2 < 32 := by
  intro t ht
  obtain ⟨j, b, v, hv, h8, -, ht⟩ := (mem_spriteCells _ _ _ _ _).1 ht
  have hj := (List.getElem?_eq_some_iff.1 hv).1
  cases p with
  | fault =>
    simp only [edgeViolation, decide_eq_false_iff_not] at h
    obtain rfl := Option.some.inj ht
    simp only [fbWidth, fbHeight] at h ⊢
    omega
  | clip =>
    simp only [spriteTarget] at ht
    split at ht
    · next hc => obtain rfl := Option.some.inj ht; exact hc
    · simp at ht
  | wrap =>
    obtain rfl := Option.some.inj ht
    exact ⟨Nat.mod_lt _ (by decide), Nat.mod_lt _ (by decide)⟩

/-- What a blit of at most 15 rows that raises nothing does: to every pixel, to the collision flag, and to the reports. -/
theorem blitSprite_spec (p : EdgePolicy) (cx cy : Nat) (rows : List Byte) (f : Screen) (hl : rows.length ≤ 15)
    (h : edgeViolation p cx cy rows.length = false) :
    (∀ c r, Screen.get (blitSprite p cx cy rows f).screen c r = (Screen.get f c r ^^ decide ((c, r) ∈ spriteCells p cx cy rows))) ∧
    ((blitSprite p cx cy rows f).collision = (spriteCells p cx cy rows).any fun t => Screen.get f t.1 t.2) ∧
    ((blitSprite p cx cy rows f).changed = (spriteCells p cx cy rows).map fun t => .cell t.1 t.2 (!Screen.get f t.1 t.2)) := by
  unfold blitSprite
  rw [plotRows_eq]
  have := toggleCells_spec (spriteCells p cx cy rows) ⟨f, false, []⟩ (spriteCells_nodup p cx cy 0 rows (by omega))
    (spriteCells_onGrid p cx cy rows h)
  simpa using this

end Sys2Proof.Machine
end

