-- ==== Sys2Proof/Laws/Memory.lean ====
section
/-! SUPPORT. Memory: a read after a write, the canonical form kept by every memory operation, runs of bytes, the range check. -/

namespace Sys2Proof.Machine

/-- A lookup in a list of cells: the listed byte, or what the address reads as unlisted. -/
theorem Memory.read_filter_ne (font : Vector Byte 80) (m : Memory) (a b : Nat) :
    Memory.read font (m.filter fun c => c.1 != a) b = if b = a then Memory.initial font b else Memory.read font m b := by
  induction m with
  | nil => simp [Memory.read]
  | cons c m ih =>
    by_cases hc : c.1 = a <;> by_cases hb : b = a <;> by_cases h : b = c.1 <;> simp_all [Memory.read]

theorem Memory.read_insert (font : Vector Byte 80) (m : Memory) (a b : Nat) (v : Byte) (h : ∀ c ∈ m, c.1 ≠ a) :
    Memory.read font (Memory.insert a v m) b = if b = a then v else Memory.read font m b := by
  induction m with
  | nil => simp [Memory.insert, Memory.read]
  | cons c m ih =>
    have hc : c.1 ≠ a := h c (by simp)
    have ih' := ih fun d hd => h d (by simp [hd])
    unfold Memory.insert
    split
    · simp [Memory.read]
    · by_cases hb : b = c.1
      · subst hb; simp [Memory.read, hc]
      · simp [Memory.read, hb, ih']

/-- A read after a write, on every list of cells: the byte written at its address, the old byte elsewhere. -/
theorem Memory.read_write (font : Vector Byte 80) (m : Memory) (a b : Nat) (v : Byte) (ha : a < memSize) :
    Memory.read font (Memory.write font m a v) b = if b = a then v else Memory.read font m b := by
  unfold Memory.write
  rw [if_pos ha]
  dsimp only
  split
  · next hv => rw [Memory.read_filter_ne]; split <;> simp_all
  · rw [Memory.read_insert _ _ _ _ _ (by simp), Memory.read_filter_ne]; split <;> simp_all

theorem Memory.mem_insert (m : Memory) (a : Nat) (v : Byte) (c : Host.Cell) :
    c ∈ Memory.insert a v m ↔ c = (a, v) ∨ c ∈ m := by
  induction m with
  | nil => simp [Memory.insert]
  | cons d m ih =>
    unfold Memory.insert
    split
    · simp
    · simp [ih]; tauto

theorem Memory.insert_pairwise (m : Memory) (a : Nat) (v : Byte) (h : m.Pairwise fun c d => c.1 < d.1) (ha : ∀ c ∈ m, c.1 ≠ a) :
    (Memory.insert a v m).Pairwise fun c d => c.1 < d.1 := by
  induction m with
  | nil => simp [Memory.insert]
  | cons c m ih =>
    rw [List.pairwise_cons] at h
    have hc : c.1 ≠ a := ha c (by simp)
    unfold Memory.insert
    split
    · next hlt =>
      refine List.pairwise_cons.2 ⟨?_, List.pairwise_cons.2 h⟩
      intro d hd
      rcases List.mem_cons.1 hd with rfl | hd
      · exact hlt
      · exact Nat.lt_trans hlt (h.1 d hd)
    · next hge =>
      refine List.pairwise_cons.2 ⟨?_, ih h.2 fun d hd => ha d (by simp [hd])⟩
      intro d hd
      rcases (Memory.mem_insert m a v d).1 hd with rfl | hd
      · show c.1 < a
        omega
      · exact h.1 d hd

/-- Every write keeps the canonical form. -/
theorem Memory.wf_write (font : Vector Byte 80) (m : Memory) (a : Nat) (v : Byte) (h : Memory.wf font m) :
    Memory.wf font (Memory.write font m a v) := by
  unfold Memory.write
  split
  · next ha =>
    have hp : (m.filter fun c => c.1 != a).Pairwise fun c d => c.1 < d.1 := h.1.filter _
    have hf : ∀ c ∈ m.filter fun c => c.1 != a, c.1 < memSize ∧ c.2 ≠ Memory.initial font c.1 :=
      fun c hc => h.2 c (List.mem_filter.1 hc).1
    dsimp only
    split
    · exact ⟨hp, hf⟩
    · next hv =>
      refine ⟨Memory.insert_pairwise _ _ _ hp (by simp), fun c hc => ?_⟩
      rcases (Memory.mem_insert _ _ _ _).1 hc with rfl | hc
      · exact ⟨ha, hv⟩
      · exact hf c hc
  · exact h

theorem Memory.wf_nil (font : Vector Byte 80) : Memory.wf font [] := by simp [Memory.wf]

/-- Two memories in canonical form that read the same everywhere are the same list. -/
theorem Memory.eq_of_read_eq (font : Vector Byte 80) (m n : Memory) (hm : Memory.wf font m) (hn : Memory.wf font n)
    (h : ∀ a, Memory.read font m a = Memory.read font n a) : m = n := by
  have read_lt : ∀ (l : Memory) (a : Nat), (∀ c ∈ l, a < c.1) → Memory.read font l a = Memory.initial font a := by
    intro l
    induction l with
    | nil => intro a _; rfl
    | cons c l ih =>
      intro a hl
      have : a < c.1 := hl c (by simp)
      have hne : a ≠ c.1 := by omega
      simp [Memory.read, hne, ih a fun d hd => hl d (by simp [hd])]
  induction m generalizing n with
  | nil =>
    cases n with
    | nil => rfl
    | cons d n =>
      have := h d.1
      simp only [Memory.read, if_true] at this
      exact absurd this.symm (hn.2 d (by simp)).2
  | cons c m ih =>
    cases n with
    | nil =>
      have := h c.1
      simp only [Memory.read, if_true] at this
      exact absurd this (hm.2 c (by simp)).2
    | cons d n =>
      have hm1 := List.pairwise_cons.1 hm.1
      have hn1 := List.pairwise_cons.1 hn.1
      have hcd : c.1 = d.1 := by
        rcases Nat.lt_trichotomy c.1 d.1 with hlt | heq | hgt
        · have hc := h c.1
          rw [read_lt (d :: n) c.1 (by
            intro e he
            rcases List.mem_cons.1 he with rfl | he
            · exact hlt
            · exact Nat.lt_trans hlt (hn1.1 e he))] at hc
          simp only [Memory.read, if_true] at hc
          exact absurd hc (hm.2 c (by simp)).2
        · exact heq
        · have hd := h d.1
          rw [read_lt (c :: m) d.1 (by
            intro e he
            rcases List.mem_cons.1 he with rfl | he
            · exact hgt
            · exact Nat.lt_trans hgt (hm1.1 e he))] at hd
          simp only [Memory.read, if_true] at hd
          exact absurd hd.symm (hn.2 d (by simp)).2
      have hv : c.2 = d.2 := by
        have := h c.1
        simpa [Memory.read, hcd] using this
      have htail : m = n := by
        refine ih n ⟨hm1.2, fun e he => hm.2 e (by simp [he])⟩ ⟨hn1.2, fun e he => hn.2 e (by simp [he])⟩ ?_
        intro a
        by_cases ha : a = c.1
        · subst ha
          rw [read_lt m c.1 hm1.1, read_lt n c.1 (fun e he => hcd ▸ hn1.1 e he)]
        · have := h a
          simpa [Memory.read, ha, ← hcd] using this
      rw [Prod.ext hcd hv, htail]

/-! ## The same over a state -/

/-- A byte written is read back, every other byte is as before. -/
theorem State.readByte_writeByte (s : State) (a b : Nat) (v : Byte) (ha : a < memSize) :
    (s.writeByte a v).readByte b = if b = a then v else s.readByte b :=
  Memory.read_write _ _ _ _ _ ha

/-- What a run of bytes written from `a` upward leaves: everything but memory as it was. -/
theorem State.writeBytes_eq (s : State) (a : Nat) (bs : List Byte) : ∃ m, s.writeBytes a bs = { s with mem := m } := by
  induction bs generalizing s a with
  | nil => exact ⟨s.mem, rfl⟩
  | cons b bs ih =>
    obtain ⟨m, hm⟩ := ih (s.writeByte a b) (a + 1)
    exact ⟨m, by rw [State.writeBytes, hm]; rfl⟩

/-- A run of bytes written inside memory is read back; every other byte is as before. -/
theorem State.readByte_writeBytes (s : State) (a b : Nat) (bs : List Byte) (h : a + bs.length ≤ memSize) :
    (s.writeBytes a bs).readByte b = if hb : a ≤ b ∧ b < a + bs.length then bs[b - a] else s.readByte b := by
  induction bs generalizing s a with
  | nil =>
    have : ¬ (a ≤ b ∧ b < a + ([] : List Byte).length) := by simp
    rw [dif_neg this]; rfl
  | cons v bs ih =>
    rw [List.length_cons] at h
    rw [State.writeBytes, ih _ _ (by omega)]
    by_cases h1 : a + 1 ≤ b ∧ b < a + 1 + bs.length
    · have h2 : a ≤ b ∧ b < a + (v :: bs).length := by simp only [List.length_cons]; omega
      rw [dif_pos h1, dif_pos h2]
      have : b - a = (b - (a + 1)) + 1 := by omega
      simp [this]
    · rw [dif_neg h1, State.readByte_writeByte _ _ _ _ (by omega)]
      by_cases hb : b = a
      · subst hb; simp
      · have h2 : ¬ (a ≤ b ∧ b < a + (v :: bs).length) := by simp only [List.length_cons]; omega
        rw [if_neg hb, dif_neg h2]

/-- Every run of bytes written keeps the canonical form. -/
theorem State.wf_writeBytes (s : State) (a : Nat) (bs : List Byte) (h : Memory.wf s.cfg.font s.mem) :
    Memory.wf s.cfg.font (s.writeBytes a bs).mem := by
  induction bs generalizing s a with
  | nil => exact h
  | cons b bs ih => exact ih (s.writeByte a b) (a + 1) (Memory.wf_write _ _ _ _ h)

@[simp] theorem State.readBytes_length (s : State) (a n : Nat) : (s.readBytes a n).length = n := by simp [State.readBytes]

@[simp] theorem State.blockBytes_length (s : State) (x : Nibble) : (s.blockBytes x).length = x.toNat + 1 := by
  have := x.isLt
  simp [State.blockBytes]; omega

@[simp] theorem State.readBytes_getElem (s : State) (a n k : Nat) (h : k < (s.readBytes a n).length) :
    (s.readBytes a n)[k] = s.readByte (a + k) := by simp [State.readBytes]

@[simp] theorem State.blockBytes_getElem (s : State) (x : Nibble) (k : Nat) (h : k < (s.blockBytes x).length) :
    (s.blockBytes x)[k] = s.v[k]'(by have := x.isLt; simp at h; omega) := by simp [State.blockBytes]

/-! ## The range check -/

theorem firstBeyond_eq_none (a n : Nat) : firstBeyond a n = none ↔ n = 0 ∨ a + n ≤ memSize := by
  unfold firstBeyond; split <;> simp_all

theorem firstBeyond_eq_some (a n b : Nat) : firstBeyond a n = some b ↔ 0 < n ∧ memSize < a + n ∧ b = max a memSize := by
  unfold firstBeyond
  split
  · constructor
    · simp
    · omega
  · simp only [Option.some.injEq]; constructor
    · rintro rfl; omega
    · rintro ⟨-, -, rfl⟩; rfl

end Sys2Proof.Machine
end

