-- ==== Sys2Proof/Laws/Registers.lean ====
section
/-! SUPPORT. Registers, skips, the flag, zero extension, timers, raising and the end of a dispatch: one lemma for what each can do. -/

namespace Sys2Proof.Machine

/-- A register written holds the value; every other one is as before. -/
theorem State.getV_setV (s : State) (x y : Nibble) (b : Byte) : (s.setV x b).getV y = if y = x then b else s.getV y := by
  unfold State.getV State.setV
  rw [Vector.getElem_set]
  by_cases h : y = x
  · subst h; simp
  · have : x.toNat ≠ y.toNat := fun e => h (BitVec.eq_of_toNat_eq e).symm
    simp [h, this]

@[simp] theorem State.getV_setV_self (s : State) (x : Nibble) (b : Byte) : (s.setV x b).getV x = b := by
  simp [State.getV_setV]

theorem State.getV_setV_ne (s : State) (x y : Nibble) (b : Byte) (h : y ≠ x) : (s.setV x b).getV y = s.getV y := by
  simp [State.getV_setV, h]

/-- VF written as the flag; every other register is as before. -/
theorem State.getV_setFlag (s : State) (f : Bool) (y : Nibble) :
    (s.setFlag f).getV y = if y = 0xF then (if f then 0x01 else 0x00) else s.getV y := State.getV_setV _ _ _ _

/-- A block load: the registers up to `x` from memory, the others as before. -/
theorem State.getV_loadBlock (s : State) (x y : Nibble) (a : Nat) :
    (s.loadBlock x a).getV y = if y.toNat ≤ x.toNat then s.readByte (a + y.toNat) else s.getV y := by
  simp [State.getV, State.loadBlock]

/-- A skip moves PC by 2 or changes nothing. -/
theorem State.skipIf_eq (s : State) (c : Bool) : s.skipIf c = s.setPc (if c then s.pc + 2 else s.pc) := by
  cases c <;> rfl

theorem State.stackFull_eq_some (s : State) (d : Nat) : s.stackFull = some d ↔ s.cfg.stackLimit = some d ∧ d ≤ s.stack.length := by
  unfold State.stackFull
  split
  · next e h => rw [h]; split <;> simp <;> omega
  · next h => simp [h]

theorem State.stackFull_eq_none (s : State) : s.stackFull = none ↔ ∀ d, s.cfg.stackLimit = some d → s.stack.length < d := by
  unfold State.stackFull
  split
  · next e h => rw [h]; split <;> simp <;> omega
  · next h => simp [h]

theorem zextAddr_toNat (a : Addr) : (zextAddr a).toNat = a.toNat := by
  have := a.isLt
  simp [zextAddr]; omega

theorem zextByte_toNat (b : Byte) : (zextByte b).toNat = b.toNat := by
  have := b.isLt
  simp [zextByte]; omega

theorem zextKey_toNat (k : Nibble) : (zextKey k).toNat = k.toNat := by
  have := k.isLt
  simp [zextKey]; omega

theorem glyphAddr_toNat (b : Byte) : (glyphAddr b).toNat = b.toNat * 5 := by
  have := b.isLt
  rw [glyphAddr, BitVec.toNat_mul, zextByte_toNat]
  simp; omega

/-- One tick of a counter on the naturals. -/
theorem tickDown_toNat (b : Byte) : (tickDown b).toNat = b.toNat - 1 := by
  unfold tickDown
  split
  · next h => subst h; rfl
  · next h =>
    have h0 : b.toNat ≠ 0 := fun e => h (BitVec.eq_of_toNat_eq (by simpa using e))
    have := b.isLt
    rw [BitVec.toNat_sub]; simp; omega

/-- A dispatch that leaves the mode Running is ticked and retired. -/
theorem State.finish_running (s : State) (w : Word) (h : s.mode = .running) : s.finish w = s.tick.retire w := by
  unfold State.finish; rw [h]

/-- A dispatch that leaves another mode is left as it is. -/
theorem State.finish_of_ne (s : State) (w : Word) (h : s.mode ≠ .running) : s.finish w = s := by
  unfold State.finish; split <;> simp_all

/-! ### A skip and a run of stored bytes, field by field -/

@[simp] theorem State.skipIf_v (s : State) (c : Bool) : (s.skipIf c).v = s.v := by cases c <;> rfl
@[simp] theorem State.skipIf_i (s : State) (c : Bool) : (s.skipIf c).i = s.i := by cases c <;> rfl
@[simp] theorem State.skipIf_stack (s : State) (c : Bool) : (s.skipIf c).stack = s.stack := by cases c <;> rfl
@[simp] theorem State.skipIf_dt (s : State) (c : Bool) : (s.skipIf c).dt = s.dt := by cases c <;> rfl
@[simp] theorem State.skipIf_st (s : State) (c : Bool) : (s.skipIf c).st = s.st := by cases c <;> rfl
@[simp] theorem State.skipIf_mem (s : State) (c : Bool) : (s.skipIf c).mem = s.mem := by cases c <;> rfl
@[simp] theorem State.skipIf_fb (s : State) (c : Bool) : (s.skipIf c).fb = s.fb := by cases c <;> rfl
@[simp] theorem State.skipIf_mode (s : State) (c : Bool) : (s.skipIf c).mode = s.mode := by cases c <;> rfl
@[simp] theorem State.skipIf_last (s : State) (c : Bool) : (s.skipIf c).last = s.last := by cases c <;> rfl
@[simp] theorem State.skipIf_cfg (s : State) (c : Bool) : (s.skipIf c).cfg = s.cfg := by cases c <;> rfl
@[simp] theorem State.skipIf_inputs (s : State) (c : Bool) : (s.skipIf c).inputs = s.inputs := by cases c <;> rfl
@[simp] theorem State.skipIf_inputNo (s : State) (c : Bool) : (s.skipIf c).inputNo = s.inputNo := by cases c <;> rfl
@[simp] theorem State.skipIf_events (s : State) (c : Bool) : (s.skipIf c).events = s.events := by cases c <;> rfl
@[simp] theorem State.skipIf_pc (s : State) (c : Bool) : (s.skipIf c).pc = if c then s.pc + 2 else s.pc := by cases c <;> rfl
@[simp] theorem State.skipIf_getV (s : State) (c : Bool) (r : Nibble) : (s.skipIf c).getV r = s.getV r := by cases c <;> rfl
@[simp] theorem State.skipIf_readByte (s : State) (c : Bool) (a : Nat) : (s.skipIf c).readByte a = s.readByte a := by cases c <;> rfl
@[simp] theorem State.skipIf_pixel (s : State) (c : Bool) (col row : Nat) : (s.skipIf c).pixel col row = s.pixel col row := by cases c <;> rfl

@[simp] theorem State.writeBytes_v (s : State) (a : Nat) (bs : List Byte) : (s.writeBytes a bs).v = s.v := by
  obtain ⟨m, h⟩ := s.writeBytes_eq a bs; rw [h]
@[simp] theorem State.writeBytes_i (s : State) (a : Nat) (bs : List Byte) : (s.writeBytes a bs).i = s.i := by
  obtain ⟨m, h⟩ := s.writeBytes_eq a bs; rw [h]
@[simp] theorem State.writeBytes_pc (s : State) (a : Nat) (bs : List Byte) : (s.writeBytes a bs).pc = s.pc := by
  obtain ⟨m, h⟩ := s.writeBytes_eq a bs; rw [h]
@[simp] theorem State.writeBytes_stack (s : State) (a : Nat) (bs : List Byte) : (s.writeBytes a bs).stack = s.stack := by
  obtain ⟨m, h⟩ := s.writeBytes_eq a bs; rw [h]
@[simp] theorem State.writeBytes_dt (s : State) (a : Nat) (bs : List Byte) : (s.writeBytes a bs).dt = s.dt := by
  obtain ⟨m, h⟩ := s.writeBytes_eq a bs; rw [h]
@[simp] theorem State.writeBytes_st (s : State) (a : Nat) (bs : List Byte) : (s.writeBytes a bs).st = s.st := by
  obtain ⟨m, h⟩ := s.writeBytes_eq a bs; rw [h]
@[simp] theorem State.writeBytes_fb (s : State) (a : Nat) (bs : List Byte) : (s.writeBytes a bs).fb = s.fb := by
  obtain ⟨m, h⟩ := s.writeBytes_eq a bs; rw [h]
@[simp] theorem State.writeBytes_mode (s : State) (a : Nat) (bs : List Byte) : (s.writeBytes a bs).mode = s.mode := by
  obtain ⟨m, h⟩ := s.writeBytes_eq a bs; rw [h]
@[simp] theorem State.writeBytes_last (s : State) (a : Nat) (bs : List Byte) : (s.writeBytes a bs).last = s.last := by
  obtain ⟨m, h⟩ := s.writeBytes_eq a bs; rw [h]
@[simp] theorem State.writeBytes_cfg (s : State) (a : Nat) (bs : List Byte) : (s.writeBytes a bs).cfg = s.cfg := by
  obtain ⟨m, h⟩ := s.writeBytes_eq a bs; rw [h]
@[simp] theorem State.writeBytes_inputs (s : State) (a : Nat) (bs : List Byte) : (s.writeBytes a bs).inputs = s.inputs := by
  obtain ⟨m, h⟩ := s.writeBytes_eq a bs; rw [h]
@[simp] theorem State.writeBytes_inputNo (s : State) (a : Nat) (bs : List Byte) : (s.writeBytes a bs).inputNo = s.inputNo := by
  obtain ⟨m, h⟩ := s.writeBytes_eq a bs; rw [h]
@[simp] theorem State.writeBytes_events (s : State) (a : Nat) (bs : List Byte) : (s.writeBytes a bs).events = s.events := by
  obtain ⟨m, h⟩ := s.writeBytes_eq a bs; rw [h]
@[simp] theorem State.writeBytes_getV (s : State) (a : Nat) (bs : List Byte) (r : Nibble) : (s.writeBytes a bs).getV r = s.getV r := by
  obtain ⟨m, h⟩ := s.writeBytes_eq a bs; rw [h]; rfl
@[simp] theorem State.writeBytes_pixel (s : State) (a : Nat) (bs : List Byte) (col row : Nat) : (s.writeBytes a bs).pixel col row = s.pixel col row := by
  obtain ⟨m, h⟩ := s.writeBytes_eq a bs; rw [h]; rfl

end Sys2Proof.Machine
end

