-- ==== Sys2Proof/Laws/Step.lean ====
section
/-! SUPPORT. What a step can do, said once, and what each operation that may raise a fatal condition can answer. -/

namespace Sys2Proof.Machine

/-- Every way a step answers a next state: an abort, the normal end, a DecodeError, a dispatched instruction, or a wait step
(40 R111, 45 R224). -/
theorem step_next_cases {s t : State} (h : step s = .next t) :
    (s.mode = .running ∧ s.input.abort = true ∧ t = (s.halt .aborted).nextInput) ∨
    (s.mode = .running ∧ s.input.abort = false ∧ s.fetchWord = none ∧ t = (s.halt .normal).nextInput) ∨
    (∃ w e, s.mode = .running ∧ s.input.abort = false ∧ s.fetchWord = some w ∧ decode w = .error e ∧
      t = (s.advance.raise .decodeError w .none).nextInput) ∨
    (∃ w i u, s.mode = .running ∧ s.input.abort = false ∧ s.fetchWord = some w ∧ decode w = .ok i ∧
      exec i s.advance = .next u ∧ t = (u.finish w).nextInput) ∨
    (∃ x w, s.mode = .waitKey x w ∧ t = (s.waitStep x w).nextInput) := by
  unfold step at h
  split at h
  · cases h
  · next x w hm => exact .inr (.inr (.inr (.inr ⟨x, w, hm, (Host.Outcome.next.inj h).symm⟩)))
  · next hm =>
    unfold cycle runWord at h
    cases ha : s.input.abort with
    | true =>
      rw [ha] at h
      exact .inl ⟨hm, rfl, (Host.Outcome.next.inj h).symm⟩
    | false =>
      rw [ha] at h
      cases hw : s.fetchWord with
      | none =>
        rw [hw] at h
        exact .inr (.inl ⟨hm, rfl, rfl, (Host.Outcome.next.inj h).symm⟩)
      | some w =>
        rw [hw] at h
        cases hd : decode w with
        | error e =>
          simp only [hd] at h
          exact .inr (.inr (.inl ⟨w, e, hm, rfl, rfl, hd, (Host.Outcome.next.inj h).symm⟩))
        | ok i =>
          simp only [hd] at h
          cases he : exec i s.advance with
          | next u =>
            simp only [he] at h
            exact .inr (.inr (.inr (.inl ⟨w, i, u, hm, rfl, rfl, hd, he, (Host.Outcome.next.inj h).symm⟩)))
          | fault f => simp [he] at h
          | refused r => simp [he] at h

/-- The wait step: an abort, no change, or the key taken (45 R224). -/
theorem State.waitStep_cases (s : State) (x : Nibble) (w : Word) :
    (s.input.abort = true ∧ s.waitStep x w = s.halt .aborted) ∨
    (s.input.abort = false ∧ s.input.key = none ∧ s.waitStep x w = s) ∨
    (∃ k, s.input.abort = false ∧ s.input.key = some k ∧ s.waitStep x w = s.takeKey x w k) := by
  unfold State.waitStep
  cases s.input.abort with
  | true => exact .inl ⟨rfl, rfl⟩
  | false =>
    cases hk : s.input.key with
    | none => exact .inr (.inl ⟨rfl, rfl, by simp⟩)
    | some k => exact .inr (.inr ⟨k, rfl, rfl, by simp⟩)

/-- The fetch: none at the end of memory, else the big-endian word at PC (40 R104). -/
theorem State.fetchWord_eq_some (s : State) (w : Word) :
    s.fetchWord = some w ↔
      s.pc.toNat + 2 ≤ memSize ∧ w = wordOfBytes (s.readByte s.pc.toNat) (s.readByte (s.pc.toNat + 1)) := by
  unfold State.fetchWord
  split
  · simp; omega
  · simp only [Option.some.injEq]
    exact ⟨fun h => ⟨by omega, h.symm⟩, fun h => h.2.symm⟩

theorem State.fetchWord_eq_none (s : State) : s.fetchWord = none ↔ memSize < s.pc.toNat + 2 := by
  unfold State.fetchWord; split <;> simp_all

/-- DRW: the memory trap, the edge trap, or the draw (41 R134). -/
theorem execDrw_cases (x y n : Nibble) (s : State) :
    (0 < n.toNat ∧ memSize < s.i.toNat + n.toNat ∧
      execDrw x y n s = .next (s.raise .memoryOutOfBounds (encode (.drw x y n)) (.address (max s.i.toNat memSize)))) ∨
    ((n.toNat = 0 ∨ s.i.toNat + n.toNat ≤ memSize) ∧ edgeViolation s.cfg.edge (s.getV x).toNat (s.getV y).toNat n.toNat = true ∧
      execDrw x y n s = .next (s.raise .drawOutOfBounds (encode (.drw x y n)) (.sprite (s.getV x) (s.getV y) n))) ∨
    ((n.toNat = 0 ∨ s.i.toNat + n.toNat ≤ memSize) ∧ edgeViolation s.cfg.edge (s.getV x).toNat (s.getV y).toNat n.toNat = false ∧
      execDrw x y n s = .next (s.draw (s.getV x).toNat (s.getV y).toNat (s.readBytes s.i.toNat n.toNat))) := by
  unfold execDrw
  cases h : firstBeyond s.i.toNat n.toNat with
  | some a =>
    obtain ⟨h1, h2, rfl⟩ := (firstBeyond_eq_some _ _ _).1 h
    exact .inl ⟨h1, h2, rfl⟩
  | none =>
    have h1 := (firstBeyond_eq_none _ _).1 h
    cases he : edgeViolation s.cfg.edge (s.getV x).toNat (s.getV y).toNat n.toNat with
    | true => exact .inr (.inl ⟨h1, rfl, by simp⟩)
    | false => exact .inr (.inr ⟨h1, rfl, by simp⟩)

/-- The edge check on the naturals (41 R136). -/
theorem edgeViolation_eq_true (p : EdgePolicy) (cx cy n : Nat) :
    edgeViolation p cx cy n = true ↔ p = .fault ∧ 0 < n ∧ (fbWidth < cx + 8 ∨ fbHeight < cy + n) := by
  cases p <;> simp [edgeViolation]

/-- A draw: the screen, VF and the events change, and nothing else (41 R134). -/
theorem State.draw_eq (s : State) (cx cy : Nat) (rows : List Byte) :
    s.draw cx cy rows = { s with
      fb := (blitSprite s.cfg.edge cx cy rows s.fb).screen
      v := (s.setFlag (blitSprite s.cfg.edge cx cy rows s.fb).collision).v
      events := s.events ++ drawEvents (blitSprite s.cfg.edge cx cy rows s.fb).changed } := rfl

/-- RET: the underflow trap or the pop (42 R150). -/
theorem execRet_cases (s : State) :
    (s.stack = [] ∧ execRet s = .next (s.raise .stackUnderflow (encode .ret) .none)) ∨
    (∃ a rest, s.stack = a :: rest ∧ execRet s = .next (({ s with stack := rest } : State).setPc a)) := by
  unfold execRet
  cases h : s.stack with
  | nil => exact .inl ⟨rfl, rfl⟩
  | cons a rest => exact .inr ⟨a, rest, rfl, rfl⟩

/-- CALL: the overflow trap where a limit is set and reached, else the push and the jump (42 R152). -/
theorem execCall_cases (addr : Addr) (s : State) :
    (∃ d, s.cfg.stackLimit = some d ∧ d ≤ s.stack.length ∧
      execCall addr s = .next (s.raise .stackOverflow (encode (.call addr)) (.limit d))) ∨
    ((∀ d, s.cfg.stackLimit = some d → s.stack.length < d) ∧
      execCall addr s = .next ((s.push s.pc).setPc (zextAddr addr))) := by
  unfold execCall
  cases h : s.stackFull with
  | some d =>
    obtain ⟨h1, h2⟩ := (s.stackFull_eq_some d).1 h
    exact .inl ⟨d, h1, h2, rfl⟩
  | none => exact .inr ⟨s.stackFull_eq_none.1 h, rfl⟩

/-- LD B: the memory trap or the three digits (44 R203). -/
theorem execLdB_cases (x : Nibble) (s : State) :
    (memSize < s.i.toNat + 3 ∧
      execLdB x s = .next (s.raise .memoryOutOfBounds (encode (.ldB x)) (.address (max s.i.toNat memSize)))) ∨
    (s.i.toNat + 3 ≤ memSize ∧ execLdB x s = .next (s.writeBytes s.i.toNat (bcdDigits (s.getV x)))) := by
  unfold execLdB
  cases h : firstBeyond s.i.toNat 3 with
  | some a =>
    obtain ⟨-, h2, rfl⟩ := (firstBeyond_eq_some _ _ _).1 h
    exact .inl ⟨h2, rfl⟩
  | none => exact .inr ⟨((firstBeyond_eq_none _ _).1 h).resolve_left (by decide), rfl⟩

/-- LD [I], Vx: the memory trap or the stores (44 R204). -/
theorem execStRegs_cases (x : Nibble) (s : State) :
    (memSize < s.i.toNat + (x.toNat + 1) ∧
      execStRegs x s = .next (s.raise .memoryOutOfBounds (encode (.stRegs x)) (.address (max s.i.toNat memSize)))) ∨
    (s.i.toNat + (x.toNat + 1) ≤ memSize ∧ execStRegs x s = .next (s.writeBytes s.i.toNat (s.blockBytes x))) := by
  unfold execStRegs
  cases h : firstBeyond s.i.toNat (x.toNat + 1) with
  | some a =>
    obtain ⟨-, h2, rfl⟩ := (firstBeyond_eq_some _ _ _).1 h
    exact .inl ⟨h2, rfl⟩
  | none => exact .inr ⟨((firstBeyond_eq_none _ _).1 h).resolve_left (by omega), rfl⟩

/-- LD Vx, [I]: the memory trap or the loads (44 R205). -/
theorem execLdRegs_cases (x : Nibble) (s : State) :
    (memSize < s.i.toNat + (x.toNat + 1) ∧
      execLdRegs x s = .next (s.raise .memoryOutOfBounds (encode (.ldRegs x)) (.address (max s.i.toNat memSize)))) ∨
    (s.i.toNat + (x.toNat + 1) ≤ memSize ∧ execLdRegs x s = .next (s.loadBlock x s.i.toNat)) := by
  unfold execLdRegs
  cases h : firstBeyond s.i.toNat (x.toNat + 1) with
  | some a =>
    obtain ⟨-, h2, rfl⟩ := (firstBeyond_eq_some _ _ _).1 h
    exact .inl ⟨h2, rfl⟩
  | none => exact .inr ⟨((firstBeyond_eq_none _ _).1 h).resolve_left (by omega), rfl⟩

end Sys2Proof.Machine
end

