-- ==== Sys2Proof/Laws/Exec.lean ====
section
/-! SUPPORT. Everything an instruction can do, said once: fourteen shapes of next state, and that every instruction answers one of them. -/

namespace Sys2Proof.Machine

open Sys2Proof.Safety

/-- The shapes of next state that `exec i s` can answer. -/
inductive Effect : Instr → State → State → Prop
  /-- A fatal condition raised: nothing but the mode changes (60 R240, R248). -/
  | raised (i : Instr) (s : State) (kind : FatalKind) (info : FatalInfo) : Effect i s (s.raise kind (encode i) info)
  /-- General registers written, none outside the instruction's destinations (10 R21, R22). -/
  | regs (i : Instr) (s : State) (v : Vector Byte 16) (h : ∀ r : Nibble, r ∉ destinations i → v[r.toNat]'r.isLt = s.getV r) :
      Effect i s { s with v := v }
  /-- A skip on an immediate (42 R154, R155). -/
  | skipImm (i : Instr) (s : State) (x : Nibble) (kk : Byte) (c : Bool) (h : i = .seImm x kk ∨ i = .sneImm x kk) : Effect i s (s.skipIf c)
  /-- A skip on two registers (42 R156, R157). -/
  | skipReg (i : Instr) (s : State) (x y : Nibble) (c : Bool) (h : i = .seReg x y ∨ i = .sneReg x y) : Effect i s (s.skipIf c)
  /-- A skip on the key (45 R221, R222). -/
  | skipKey (i : Instr) (s : State) (x : Nibble) (c : Bool) (h : i = .skp x ∨ i = .sknp x) : Effect i s (s.skipIf c)
  /-- A jump (42 R151). -/
  | jump (addr : Addr) (s : State) : Effect (.jp addr) s (s.setPc (zextAddr addr))
  /-- A jump by V0 (42 R153). -/
  | jumpV0 (addr : Addr) (s : State) : Effect (.jpV0 addr) s (s.setPc (zextAddr addr + zextByte (s.getV 0x0)))
  /-- A return (42 R150). -/
  | popped (s : State) (a : Word) (rest : List Word) (h : s.stack = a :: rest) :
      Effect .ret s (({ s with stack := rest } : State).setPc a)
  /-- A call below the limit (42 R152). -/
  | pushed (addr : Addr) (s : State) (h : ∀ d, s.cfg.stackLimit = some d → s.stack.length < d) :
      Effect (.call addr) s ((s.push s.pc).setPc (zextAddr addr))
  /-- I written (10 R26). -/
  | index (i : Instr) (s : State) (a : Word) (h : (∃ n, i = .ldI n) ∨ (∃ x, i = .addI x) ∨ ∃ x, i = .ldF x) : Effect i s (s.setI a)
  /-- DT set (46 R232). -/
  | delaySet (x : Nibble) (s : State) : Effect (.ldDtVx x) s (s.setDt (s.getV x))
  /-- ST set (46 R233). -/
  | soundSet (x : Nibble) (s : State) : Effect (.ldStVx x) s (s.setSt (s.getV x))
  /-- The key wait entered (45 R223). -/
  | suspended (x : Nibble) (s : State) : Effect (.ldVxK x) s (s.setMode (.waitKey x (encode (.ldVxK x))))
  /-- Bytes stored from I upward, inside memory (20 R55). -/
  | stored (i : Instr) (s : State) (bs : List Byte) (hl : bs.length = storeWidth i) (hm : s.i.toNat + bs.length ≤ memSize) :
      Effect i s (s.writeBytes s.i.toNat bs)
  /-- The screen cleared (41 R132). -/
  | cleared (s : State) : Effect .cls s ((s.setFb Screen.blank).emit [.clear])
  /-- A sprite drawn (41 R134). -/
  | drawn (x y n : Nibble) (s : State) (hm : n.toNat = 0 ∨ s.i.toNat + n.toNat ≤ memSize)
      (he : edgeViolation s.cfg.edge (s.getV x).toNat (s.getV y).toNat n.toNat = false) :
      Effect (.drw x y n) s (s.draw (s.getV x).toNat (s.getV y).toNat (s.readBytes s.i.toNat n.toNat))

/-- A register written and nothing else, as an effect. -/
theorem Effect.ofSetV (i : Instr) (s : State) (x : Nibble) (b : Byte) (h : x ∈ destinations i) : Effect i s (s.setV x b) :=
  .regs i s _ fun r hr => s.getV_setV_ne x r b fun e => hr (e ▸ h)

/-- Two registers written and nothing else, as an effect. -/
theorem Effect.ofSetV2 (i : Instr) (s : State) (x y : Nibble) (a b : Byte) (hx : x ∈ destinations i) (hy : y ∈ destinations i) :
    Effect i s ((s.setV x a).setV y b) :=
  .regs i s _ fun r hr => ((s.setV x a).getV_setV_ne y r b fun e => hr (e ▸ hy)).trans (s.getV_setV_ne x r a fun e => hr (e ▸ hx))

/-- Every instruction answers a next state, and it is one of the shapes. -/
theorem exec_effect (i : Instr) (s : State) : ∃ t, exec i s = .next t ∧ Effect i s t := by
  cases i
  case cls => exact ⟨_, rfl, .cleared s⟩
  case ret =>
    rcases execRet_cases s with ⟨-, e⟩ | ⟨a, rest, h, e⟩
    · exact ⟨_, e, .raised _ _ _ _⟩
    · exact ⟨_, e, .popped s a rest h⟩
  case jp addr => exact ⟨_, rfl, .jump addr s⟩
  case call addr =>
    rcases execCall_cases addr s with ⟨d, -, -, e⟩ | ⟨h, e⟩
    · exact ⟨_, e, .raised _ _ _ _⟩
    · exact ⟨_, e, .pushed addr s h⟩
  case seImm x kk => exact ⟨_, rfl, .skipImm _ s x kk _ (.inl rfl)⟩
  case sneImm x kk => exact ⟨_, rfl, .skipImm _ s x kk _ (.inr rfl)⟩
  case seReg x y => exact ⟨_, rfl, .skipReg _ s x y _ (.inl rfl)⟩
  case sneReg x y => exact ⟨_, rfl, .skipReg _ s x y _ (.inr rfl)⟩
  case ldI addr => exact ⟨_, rfl, .index _ s _ (.inl ⟨addr, rfl⟩)⟩
  case addI x => exact ⟨_, rfl, .index _ s _ (.inr (.inl ⟨x, rfl⟩))⟩
  case ldF x => exact ⟨_, rfl, .index _ s _ (.inr (.inr ⟨x, rfl⟩))⟩
  case jpV0 addr => exact ⟨_, rfl, .jumpV0 addr s⟩
  case drw x y n =>
    rcases execDrw_cases x y n s with ⟨-, -, e⟩ | ⟨-, -, e⟩ | ⟨hm, he, e⟩
    · exact ⟨_, e, .raised _ _ _ _⟩
    · exact ⟨_, e, .raised _ _ _ _⟩
    · exact ⟨_, e, .drawn x y n s hm he⟩
  case skp x => exact ⟨_, rfl, .skipKey _ s x _ (.inl rfl)⟩
  case sknp x => exact ⟨_, rfl, .skipKey _ s x _ (.inr rfl)⟩
  case ldVxK x => exact ⟨_, rfl, .suspended x s⟩
  case ldDtVx x => exact ⟨_, rfl, .delaySet x s⟩
  case ldStVx x => exact ⟨_, rfl, .soundSet x s⟩
  case ldB x =>
    rcases execLdB_cases x s with ⟨-, e⟩ | ⟨h, e⟩
    · exact ⟨_, e, .raised _ _ _ _⟩
    · exact ⟨_, e, .stored _ s _ rfl h⟩
  case stRegs x =>
    rcases execStRegs_cases x s with ⟨-, e⟩ | ⟨h, e⟩
    · exact ⟨_, e, .raised _ _ _ _⟩
    · exact ⟨_, e, .stored _ s _ (s.blockBytes_length x) (by rwa [s.blockBytes_length x])⟩
  case ldRegs x =>
    rcases execLdRegs_cases x s with ⟨-, e⟩ | ⟨-, e⟩
    · exact ⟨_, e, .raised _ _ _ _⟩
    · refine ⟨_, e, .regs _ s _ fun r hr => (s.getV_loadBlock x r s.i.toNat).trans (if_neg fun hle => hr ?_)⟩
      exact List.mem_map.2 ⟨r.toNat, List.mem_range.2 (Nat.lt_succ_of_le hle), by simp⟩
  case addReg | subReg | subnReg | shr | shl =>
    exact ⟨_, rfl, Effect.ofSetV2 _ s _ _ _ _ (by simp [destinations]) (by simp [destinations])⟩
  all_goals exact ⟨_, rfl, Effect.ofSetV _ s _ _ (by simp [destinations])⟩

/-- The same as an inversion: a next state of `exec` has one of the shapes. -/
theorem effect_of_exec {i : Instr} {s t : State} (h : exec i s = .next t) : Effect i s t := by
  obtain ⟨u, hu, he⟩ := exec_effect i s
  rw [h] at hu
  exact (Host.Outcome.next.inj hu) ▸ he

/-- A run of bytes stored from I upward inside memory, byte by byte. -/
theorem State.readByte_store (s : State) (bs : List Byte) (f : Nat → Byte) (a : Nat) (hm : s.i.toNat + bs.length ≤ memSize)
    (hf : ∀ k, k < bs.length → bs[k]? = some (f k)) :
    (s.writeBytes s.i.toNat bs).readByte a = byteAfterStore s bs.length f a := by
  rw [State.readByte_writeBytes _ _ _ _ hm]
  unfold byteAfterStore
  split
  · exact (List.getElem?_eq_some_iff.1 (hf (a - s.i.toNat) (by omega))).2
  · rfl

end Sys2Proof.Machine
end

