-- ==== Sys2Proof/Laws/PerInstr.lean ====
section
/-! SUPPORT. Per instruction: its word is its own row's of the opcode map (30_encoding.md R76, R77). -/

namespace Sys2Proof.Laws.EncodedRow

/-- The row of an instruction is one of the 34 of the opcode map, and the instruction's word, for every value of its operands, is the row's:
masked it gives the row's match. -/
def Statement (i : Instr) : Prop := rowOf i ∈ opcodeMap ∧ encode i &&& (rowOf i).mask = (rowOf i).bits

theorem cls : Statement .cls := by simp [Statement, rowOf, opcodeMap, encode]

theorem ret : Statement .ret := by simp [Statement, rowOf, opcodeMap, encode]

theorem jp (addr : Addr) : Statement (.jp addr) := ⟨by simp [rowOf, opcodeMap], (nnn_and_mask _ _).trans rfl⟩

theorem call (addr : Addr) : Statement (.call addr) := ⟨by simp [rowOf, opcodeMap], (nnn_and_mask _ _).trans rfl⟩

theorem seImm (x : Nibble) (kk : Byte) : Statement (.seImm x kk) := ⟨by simp [rowOf, opcodeMap], (xkk_and_mask _ _ _).trans rfl⟩

theorem sneImm (x : Nibble) (kk : Byte) : Statement (.sneImm x kk) := ⟨by simp [rowOf, opcodeMap], (xkk_and_mask _ _ _).trans rfl⟩

theorem seReg (x y : Nibble) : Statement (.seReg x y) := ⟨by simp [rowOf, opcodeMap], (xyf_and_mask _ _ _ _).trans rfl⟩

theorem ldImm (x : Nibble) (kk : Byte) : Statement (.ldImm x kk) := ⟨by simp [rowOf, opcodeMap], (xkk_and_mask _ _ _).trans rfl⟩

theorem addImm (x : Nibble) (kk : Byte) : Statement (.addImm x kk) := ⟨by simp [rowOf, opcodeMap], (xkk_and_mask _ _ _).trans rfl⟩

theorem ldReg (x y : Nibble) : Statement (.ldReg x y) := ⟨by simp [rowOf, opcodeMap], (xyf_and_mask _ _ _ _).trans rfl⟩

theorem orReg (x y : Nibble) : Statement (.orReg x y) := ⟨by simp [rowOf, opcodeMap], (xyf_and_mask _ _ _ _).trans rfl⟩

theorem andReg (x y : Nibble) : Statement (.andReg x y) := ⟨by simp [rowOf, opcodeMap], (xyf_and_mask _ _ _ _).trans rfl⟩

theorem xorReg (x y : Nibble) : Statement (.xorReg x y) := ⟨by simp [rowOf, opcodeMap], (xyf_and_mask _ _ _ _).trans rfl⟩

theorem addReg (x y : Nibble) : Statement (.addReg x y) := ⟨by simp [rowOf, opcodeMap], (xyf_and_mask _ _ _ _).trans rfl⟩

theorem subReg (x y : Nibble) : Statement (.subReg x y) := ⟨by simp [rowOf, opcodeMap], (xyf_and_mask _ _ _ _).trans rfl⟩

theorem shr (x y : Nibble) : Statement (.shr x y) := ⟨by simp [rowOf, opcodeMap], (xyf_and_mask _ _ _ _).trans rfl⟩

theorem subnReg (x y : Nibble) : Statement (.subnReg x y) := ⟨by simp [rowOf, opcodeMap], (xyf_and_mask _ _ _ _).trans rfl⟩

theorem shl (x y : Nibble) : Statement (.shl x y) := ⟨by simp [rowOf, opcodeMap], (xyf_and_mask _ _ _ _).trans rfl⟩

theorem sneReg (x y : Nibble) : Statement (.sneReg x y) := ⟨by simp [rowOf, opcodeMap], (xyf_and_mask _ _ _ _).trans rfl⟩

theorem ldI (addr : Addr) : Statement (.ldI addr) := ⟨by simp [rowOf, opcodeMap], (nnn_and_mask _ _).trans rfl⟩

theorem jpV0 (addr : Addr) : Statement (.jpV0 addr) := ⟨by simp [rowOf, opcodeMap], (nnn_and_mask _ _).trans rfl⟩

theorem rnd (x : Nibble) (kk : Byte) : Statement (.rnd x kk) := ⟨by simp [rowOf, opcodeMap], (xkk_and_mask _ _ _).trans rfl⟩

theorem drw (x y n : Nibble) : Statement (.drw x y n) := ⟨by simp [rowOf, opcodeMap], (xyn_and_mask _ _ _ _).trans rfl⟩

theorem skp (x : Nibble) : Statement (.skp x) := ⟨by simp [rowOf, opcodeMap], (xff_and_mask _ _ _).trans rfl⟩

theorem sknp (x : Nibble) : Statement (.sknp x) := ⟨by simp [rowOf, opcodeMap], (xff_and_mask _ _ _).trans rfl⟩

theorem ldVxDt (x : Nibble) : Statement (.ldVxDt x) := ⟨by simp [rowOf, opcodeMap], (xff_and_mask _ _ _).trans rfl⟩

theorem ldVxK (x : Nibble) : Statement (.ldVxK x) := ⟨by simp [rowOf, opcodeMap], (xff_and_mask _ _ _).trans rfl⟩

theorem ldDtVx (x : Nibble) : Statement (.ldDtVx x) := ⟨by simp [rowOf, opcodeMap], (xff_and_mask _ _ _).trans rfl⟩

theorem ldStVx (x : Nibble) : Statement (.ldStVx x) := ⟨by simp [rowOf, opcodeMap], (xff_and_mask _ _ _).trans rfl⟩

theorem addI (x : Nibble) : Statement (.addI x) := ⟨by simp [rowOf, opcodeMap], (xff_and_mask _ _ _).trans rfl⟩

theorem ldF (x : Nibble) : Statement (.ldF x) := ⟨by simp [rowOf, opcodeMap], (xff_and_mask _ _ _).trans rfl⟩

theorem ldB (x : Nibble) : Statement (.ldB x) := ⟨by simp [rowOf, opcodeMap], (xff_and_mask _ _ _).trans rfl⟩

theorem stRegs (x : Nibble) : Statement (.stRegs x) := ⟨by simp [rowOf, opcodeMap], (xff_and_mask _ _ _).trans rfl⟩

theorem ldRegs (x : Nibble) : Statement (.ldRegs x) := ⟨by simp [rowOf, opcodeMap], (xff_and_mask _ _ _).trans rfl⟩

end Sys2Proof.Laws.EncodedRow
end

