-- ==== Sys2Proof/Tests/Slice0.lean ====
section
/-! SUPPORT. Tests: the refusals of the checks, a written-out word for every instruction, one-step vectors of 95_test_vectors.md (their ids stand in the docstrings), and a witness for the hypotheses of every statement. -/

namespace Sys2Proof.Tests

open Sys2Proof.Machine Sys2Proof.Safety

/-! ## Well-formedness: one ill-formed term for each check -/

/-- 30 R78: `00E1`. -/
theorem test_wf_opcode0 : Fields.wellFormed ⟨0x0, 0x0, 0xE, 0x1⟩ = false ∧ Fields.wellFormed ⟨0x0, 0x0, 0xE, 0x0⟩ = true := by decide

/-- 30 R79: `8128`, `812F`. -/
theorem test_wf_function8 : Fields.wellFormed ⟨0x8, 0x1, 0x2, 0x8⟩ = false ∧ Fields.wellFormed ⟨0x8, 0x1, 0x2, 0xF⟩ = false ∧
    Fields.wellFormed ⟨0x8, 0x1, 0x2, 0xE⟩ = true := by decide

/-- 30 R80: `5121`. -/
theorem test_wf_nibble5 : Fields.wellFormed ⟨0x5, 0x1, 0x2, 0x1⟩ = false ∧ Fields.wellFormed ⟨0x5, 0x1, 0x2, 0x0⟩ = true := by decide

/-- 30 R80: `912F`. -/
theorem test_wf_nibble9 : Fields.wellFormed ⟨0x9, 0x1, 0x2, 0xF⟩ = false ∧ Fields.wellFormed ⟨0x9, 0x1, 0x2, 0x0⟩ = true := by decide

/-- 30 R81: `E19F`. -/
theorem test_wf_byteE : Fields.wellFormed ⟨0xE, 0x1, 0x9, 0xF⟩ = false ∧ Fields.wellFormed ⟨0xE, 0x1, 0x9, 0xE⟩ = true := by decide

/-- 30 R82: `F130`. -/
theorem test_wf_byteF : Fields.wellFormed ⟨0xF, 0x1, 0x3, 0x0⟩ = false ∧ Fields.wellFormed ⟨0xF, 0x1, 0x3, 0x3⟩ = true := by decide

/-- 30 R83: every low 12 bits of a primary opcode such as D. -/
theorem test_wf_rest : Fields.wellFormed ⟨0xD, 0xF, 0xF, 0xF⟩ = true := by decide

/-- An image of `n` bytes is well-formed iff `n` is at most 3584. -/
theorem wf_replicate (n : Nat) : Image.wellFormed (List.replicate n 0x00) = decide (n ≤ 3584) := by
  unfold Image.wellFormed; rw [List.length_replicate]

/-- S13, 70 R284: 3585 bytes are refused, 3584 are not. -/
theorem test_wf_image : Image.wellFormed (List.replicate 3585 0x00) = false ∧ Image.wellFormed (List.replicate 3584 0x00) = true := by
  rw [wf_replicate, wf_replicate]; decide

/-- S13, 60 R247: construction refuses with LoadTooLarge, and the process exit code is 1. -/
theorem test_construct_too_large : construct defaultConfig (List.replicate 3585 0x00) = .error .loadTooLarge ∧
    constructExit (construct defaultConfig (List.replicate 3585 0x00)) = some 1 := by
  unfold construct; rw [wf_replicate]; decide

/-! ## Decoding: words written out from the encodings of 30 R77 -/

/-- op 0. -/
theorem test_decode_op0 : decode 0b0000000011100000 = .ok .cls ∧ decode 0b0000000011101110 = .ok .ret ∧
    decode 0x0000 = .error .opcode0 ∧ decode 0x0123 = .error .opcode0 ∧ decode 0x00E1 = .error .opcode0 := by decide

/-- ops 1, 2, A, B: twelve bits of address. -/
theorem test_decode_nnn : decode 0b0001101010111100 = .ok (.jp 0xABC) ∧ decode 0b0010010000000001 = .ok (.call 0x401) ∧
    decode 0b1010000100100011 = .ok (.ldI 0x123) ∧ decode 0b1011111111111110 = .ok (.jpV0 0xFFE) := by decide

/-- ops 3, 4, 6, 7, C: a register and a byte. -/
theorem test_decode_xkk : decode 0b0011000110100101 = .ok (.seImm 0x1 0xA5) ∧ decode 0b0100001000010010 = .ok (.sneImm 0x2 0x12) ∧
    decode 0b0110101001000010 = .ok (.ldImm 0xA 0x42) ∧ decode 0b0111111100000001 = .ok (.addImm 0xF 0x01) ∧
    decode 0b1100001110100101 = .ok (.rnd 0x3 0xA5) := by decide

/-- ops 5 and 9. -/
theorem test_decode_xy0 : decode 0b0101000100100000 = .ok (.seReg 0x1 0x2) ∧ decode 0b1001000100100000 = .ok (.sneReg 0x1 0x2) ∧
    decode 0x5121 = .error .nibble5 ∧ decode 0x912F = .error .nibble9 := by decide

/-- op 8, first half. -/
theorem test_decode_op8_low : decode 0b1000000100100000 = .ok (.ldReg 0x1 0x2) ∧ decode 0b1000000100100001 = .ok (.orReg 0x1 0x2) ∧
    decode 0b1000000100100010 = .ok (.andReg 0x1 0x2) ∧ decode 0b1000000100100011 = .ok (.xorReg 0x1 0x2) ∧
    decode 0b1000000100100100 = .ok (.addReg 0x1 0x2) := by decide

/-- op 8, second half. -/
theorem test_decode_op8_high : decode 0b1000000100100101 = .ok (.subReg 0x1 0x2) ∧ decode 0b1000000100100110 = .ok (.shr 0x1 0x2) ∧
    decode 0b1000000100100111 = .ok (.subnReg 0x1 0x2) ∧ decode 0b1000000100101110 = .ok (.shl 0x1 0x2) ∧
    decode 0x8128 = .error .function8 ∧ decode 0x812F = .error .function8 := by decide

/-- op D. -/
theorem test_decode_drw : decode 0b1101000100100101 = .ok (.drw 0x1 0x2 0x5) := by decide

/-- op E. -/
theorem test_decode_opE : decode 0b1110000110011110 = .ok (.skp 0x1) ∧ decode 0b1110000010100001 = .ok (.sknp 0x0) ∧
    decode 0xE19F = .error .byteE := by decide

/-- op F, timers and keypad. -/
theorem test_decode_opF_low : decode 0b1111010000000111 = .ok (.ldVxDt 0x4) ∧ decode 0b1111001100001010 = .ok (.ldVxK 0x3) ∧
    decode 0b1111001100010101 = .ok (.ldDtVx 0x3) ∧ decode 0b1111001100011000 = .ok (.ldStVx 0x3) ∧
    decode 0xFFFF = .error .byteF := by decide

/-- op F, index and memory. -/
theorem test_decode_opF_high : decode 0b1111000000011110 = .ok (.addI 0x0) ∧ decode 0b1111000000101001 = .ok (.ldF 0x0) ∧
    decode 0b1111000000110011 = .ok (.ldB 0x0) ∧ decode 0b1111111101010101 = .ok (.stRegs 0xF) ∧
    decode 0b1111000101100101 = .ok (.ldRegs 0x1) ∧ decode 0xF130 = .error .byteF := by decide

/-- S2, S3: the fields of a word. -/
theorem test_fields : splitWord 0xABCD = ⟨0xA, 0xB, 0xC, 0xD⟩ ∧ addrField 0xABFE = 0xBFE := by decide

/-- 20 R56: the high byte stands first; the rest of the bytes is handed back; one byte is no word. -/
theorem test_decode_bytes : decodeBytes [0x12, 0x34, 0xFF] = .ok (.jp 0x234, [0xFF]) ∧ decodeBytes [0x12] = .error .truncated := by decide

/-- The opcode table's bit 0 is the word's least significant bit. -/
theorem test_decode_table_word : decodeTableWord 16 0xD125 = some (.drw 0x1 0x2 0x5) ∧ decodeTableWord 16 0x5121 = none := by decide

/-! ## One step: the vectors of 95_test_vectors.md -/

/-- A field of the next state of an outcome. -/
def after {α : Type} (o : Host.Outcome State Fault Refusal) (f : State → α) : Option α :=
  match o with
  | .next t => some (f t)
  | _ => none

/-- The reset state with the listed registers set, VF first set to 0x55 so that an unchanged flag shows (95 section 2.4). -/
def machine (regs : List (Nibble × Byte)) : State :=
  regs.foldl (fun s r => s.setV r.1 r.2) (State.reset.setV 0xF 0x55)

/-- A listed input without abort. -/
def input (key : Option Nibble) (rnd : Byte) : StepInput := { abort := false, key := key, rnd := rnd }

/-- One step of a state that has the word at PC. -/
def runs {α : Type} (s : State) (w : Nat) (f : State → α) : Option α := after (step (s.withFetchWord 16 w)) f

/-- The fatal record of a halted state, without the word. -/
def fatal (s : State) : Option (Nat × FatalInfo) :=
  match s.mode with
  | .halted (.fatal r) => some (r.kind.code, r.info)
  | _ => none

/-- Vx and VF. -/
def vf (x : Nibble) (s : State) : Byte × Byte := (s.getV x, s.getV 0xF)

/-- F1. -/
theorem test_jp : runs (machine []) 0x1ABC (·.pc) = some 0xABC := by decide
/-- F2. -/
theorem test_call : runs (machine []) 0x2400 (fun t => (t.stack, t.pc)) = some ([0x202], 0x400) := by decide
/-- F14. -/
theorem test_call_limit : runs { machine [] with stack := [0x202, 0x302], cfg := { defaultConfig with stackLimit := some 2 } } 0x2500
    (fun t => (fatal t, t.stack)) = some (some (3, .limit 2), [0x202, 0x302]) := by decide
/-- F3. -/
theorem test_ret : runs { machine [] with pc := 0x400, stack := [0x202, 0x300] } 0x00EE (fun t => (t.pc, t.stack)) = some (0x202, [0x300]) := by
  decide
/-- F4. -/
theorem test_ret_underflow : runs { machine [] with dt := 4 } 0x00EE (fun t => (fatal t, t.pc, t.dt)) = some (some (2, .none), 0x202, 4) := by
  decide
/-- F8: no 16-bit wrap. -/
theorem test_jpV0 : runs (machine [(0x0, 0xFF)]) 0xBFFF (·.pc) = some 0x10FE := by decide
/-- F9. -/
theorem test_seImm : runs { machine [] with pc := 0xFFC } 0x3000 (·.pc) = some 0x1000 := by decide
/-- F12. -/
theorem test_sneImm : runs (machine []) 0x4500 (·.pc) = some 0x202 := by decide
/-- F10. -/
theorem test_seReg : runs (machine []) 0x5110 (·.pc) = some 0x204 := by decide
/-- F11. -/
theorem test_sneReg : runs (machine []) 0x9110 (·.pc) = some 0x202 := by decide

/-- A1. -/
theorem test_ldImm : runs (machine []) 0x6A42 (vf 0xA) = some (0x42, 0x55) := by decide
/-- A2. -/
theorem test_addImm : runs (machine [(0x1, 0xFF)]) 0x7101 (vf 0x1) = some (0x00, 0x55) := by decide
/-- A4. -/
theorem test_ldReg : runs (machine [(0x2, 0x33)]) 0x8120 (vf 0x1) = some (0x33, 0x55) := by decide
/-- A5. -/
theorem test_orReg : runs (machine [(0x1, 0x0F), (0x2, 0xF0)]) 0x8121 (vf 0x1) = some (0xFF, 0x55) := by decide
/-- A6. -/
theorem test_andReg : runs (machine [(0x1, 0x3C), (0x2, 0x0F)]) 0x8122 (vf 0x1) = some (0x0C, 0x55) := by decide
/-- A7. -/
theorem test_xorReg : runs (machine [(0x1, 0x3C)]) 0x8113 (vf 0x1) = some (0x00, 0x55) := by decide
/-- S6 and A9. -/
theorem test_addReg : runs (machine [(0x1, 0xFF), (0x2, 0x01)]) 0x8124 (vf 0x1) = some (0x00, 0x01) ∧
    runs (machine [(0x1, 0x7F), (0x2, 0x80)]) 0x8124 (vf 0x1) = some (0xFF, 0x00) := by decide
/-- A11: the flag is written last. -/
theorem test_addReg_vf : runs (machine [(0xF, 0xFF), (0x2, 0x01)]) 0x8F24 (·.getV 0xF) = some 0x01 := by decide
/-- S9 and A13. -/
theorem test_subReg : runs (machine [(0x1, 0x03), (0x2, 0x05)]) 0x8125 (vf 0x1) = some (0xFE, 0x00) ∧
    runs (machine [(0x1, 0x42), (0x2, 0x42)]) 0x8125 (vf 0x1) = some (0x00, 0x01) := by decide
/-- A14. -/
theorem test_subReg_vf : runs (machine [(0xF, 0x05), (0x2, 0x03)]) 0x8F25 (·.getV 0xF) = some 0x01 := by decide
/-- A16 and A17. -/
theorem test_subnReg : runs (machine [(0x1, 0x05), (0x2, 0x03)]) 0x8127 (vf 0x1) = some (0xFE, 0x00) ∧
    runs (machine [(0x1, 0x03), (0x2, 0x05)]) 0x8127 (vf 0x1) = some (0x02, 0x01) := by decide
/-- A20 and A22: `y` is not read. -/
theorem test_shr : runs (machine [(0x1, 0xFF)]) 0x8106 (vf 0x1) = some (0x7F, 0x01) ∧
    runs (machine [(0x1, 0x80), (0x2, 0x01)]) 0x8126 (vf 0x1) = some (0x40, 0x00) := by decide
/-- A23: the flag is written first. -/
theorem test_shr_vf : runs (machine [(0xF, 0x06)]) 0x8F06 (·.getV 0xF) = some 0x03 := by decide
/-- A24 and A25: the flag is bit 0. -/
theorem test_shl : runs (machine [(0x1, 0x80)]) 0x810E (vf 0x1) = some (0x00, 0x00) ∧
    runs (machine [(0x1, 0x81)]) 0x810E (vf 0x1) = some (0x02, 0x01) := by decide
/-- A27. -/
theorem test_shl_vf : runs (machine [(0xF, 0x81)]) 0x8F0E (·.getV 0xF) = some 0x02 := by decide
/-- A30. -/
theorem test_rnd : runs { machine [] with inputs := [input none 0xA7] } 0xC10F (vf 0x1) = some (0x07, 0x55) := by decide

/-- M1. -/
theorem test_ldI : runs (machine []) 0xA123 (·.i) = some 0x123 := by decide
/-- M2 and M3. -/
theorem test_addI : runs { machine [(0x0, 0x01)] with i := 0x0FFF } 0xF01E (fun t => (t.i, t.getV 0xF)) = some (0x1000, 0x55) ∧
    runs { machine [(0x0, 0x02)] with i := 0xFFFF } 0xF01E (·.i) = some 0x0001 := by decide
/-- M4 and M6. -/
theorem test_ldF : runs (machine [(0x0, 0x0F)]) 0xF029 (·.i) = some 0x04B ∧ runs (machine [(0x0, 0xFF)]) 0xF029 (·.i) = some 0x4FB := by decide
/-- M11. -/
theorem test_ldB : runs { machine [(0x0, 123)] with i := 0xFFD } 0xF033 (fun t => (t.readBytes 0xFFD 3, t.i)) =
    some ([0x01, 0x02, 0x03], 0xFFD) := by decide
/-- M12. -/
theorem test_ldB_traps : runs { machine [(0x0, 123)] with i := 0xFFE } 0xF033 (fun t => (fatal t, t.readBytes 0xFFE 2)) =
    some (some (4, .address 0x1000), [0x00, 0x00]) := by decide
/-- M13, its first and last byte. -/
theorem test_stRegs : runs { machine [(0x0, 0xA0), (0xE, 14)] with i := 0xFF0 } 0xFF55
    (fun t => (t.readByte 0xFF0, t.readByte 0xFFE, t.readByte 0xFFF, t.i)) = some (0xA0, 14, 0x55, 0xFF0) := by decide
/-- M15. -/
theorem test_stRegs_traps : runs { machine [] with i := 0xFFFF } 0xF055 fatal = some (some (4, .address 0xFFFF)) := by decide
/-- M18 and M16: only V0 to Vx are loaded. -/
theorem test_ldRegs : runs (machine [(0x5, 0x77)]) 0xF465 (fun t => (t.getV 0x0, t.getV 0x1, t.getV 0x4, t.getV 0x5)) =
    some (0xF0, 0x90, 0xF0, 0x77) := by decide

/-- A state with memory listed at 0x300 as 95 section 2.5 has it. -/
def canvas (x y : Byte) (i : Word) (p : EdgePolicy) : State :=
  { machine [(0x0, x), (0x1, y)] with i := i, mem := [(0x300, 0x80), (0x301, 0xFF), (0x302, 0xFF)], cfg := { defaultConfig with edge := p } }

/-- D1. -/
theorem test_cls : runs { machine [] with fb := Screen.put Screen.blank 3 4 true } 0x00E0
    (fun t => (t.pixel 3 4, t.getV 0xF, t.events)) = some (false, 0x55, [.clear]) := by decide
/-- D3, and D6 the edge trap. -/
theorem test_drw : runs (canvas 0 0 0x300 .fault) 0xD011 (fun t => (t.pixel 0 0, t.pixel 1 0, t.getV 0xF, t.events)) =
      some (true, false, 0x00, [.cell 0 0 true, .flush]) ∧
    runs (canvas 63 31 0x300 .fault) 0xD011 fatal = some (some (5, .sprite 63 31 1)) := by decide
/-- D7w: wrapping, in the order of the bits. -/
theorem test_drw_wrap : runs (canvas 60 0 0x301 .wrap) 0xD011 (·.events) =
    some [.cell 60 0 true, .cell 61 0 true, .cell 62 0 true, .cell 63 0 true, .cell 0 0 true, .cell 1 0 true, .cell 2 0 true,
      .cell 3 0 true, .flush] := by decide

/-- K1, K2 and K4. -/
theorem test_skp : runs { machine [(0x1, 5)] with inputs := [input (some 0x5) 0] } 0xE19E (·.pc) = some 0x204 ∧
    runs { machine [(0x1, 5)] with inputs := [input none 0] } 0xE19E (·.pc) = some 0x202 ∧
    runs { machine [(0x0, 0x10)] with inputs := [input (some 0x0) 0] } 0xE09E (·.pc) = some 0x202 := by decide
/-- K5, K6 and K7. -/
theorem test_sknp : runs { machine [(0x1, 5)] with inputs := [input (some 0x6) 0] } 0xE1A1 (·.pc) = some 0x204 ∧
    runs { machine [(0x1, 5)] with inputs := [input none 0] } 0xE1A1 (·.pc) = some 0x202 ∧
    runs { machine [(0x0, 0x10)] with inputs := [input (some 0x0) 0] } 0xE0A1 (·.pc) = some 0x204 := by decide
/-- K8, the dispatch step: a key that is there is not taken. -/
theorem test_ldVxK : runs { machine [] with dt := 5, inputs := [input (some 0x3) 0] } 0xF30A (fun t => (t.mode, t.dt, t.pc, t.getV 0x3)) =
    some (.waitKey 0x3 0xF30A, 5, 0x202, 0x00) := by decide
/-- K8, the step that gets a key. -/
theorem test_wait_key : after (step { machine [] with mode := .waitKey 0x3 0xF30A, dt := 5, inputs := [input (some 0xC) 0] })
    (fun t => (t.getV 0x3, t.dt, t.mode, t.last)) = some (0x0C, 4, .running, some 0xF30A) := by decide

/-- T7. -/
theorem test_ldVxDt : runs { machine [] with dt := 9 } 0xF407 (fun t => (t.getV 0x4, t.dt)) = some (9, 8) := by decide
/-- T3 and T4. -/
theorem test_ldDtVx : runs (machine [(0x3, 10)]) 0xF315 (·.dt) = some 9 ∧ runs { machine [] with dt := 7 } 0xF315 (·.dt) = some 0 := by decide
/-- T5 and T6. -/
theorem test_ldStVx : runs (machine [(0x3, 1)]) 0xF318 (fun t => (t.st, t.soundOn)) = some (0, false) ∧
    runs (machine [(0x3, 2)]) 0xF318 (fun t => (t.st, t.soundOn)) = some (1, true) := by decide
/-- T2. -/
theorem test_tick : runs { machine [] with dt := 1, st := 255 } 0x6000 (fun t => (t.dt, t.st, t.last)) = some (0, 254, some 0x6000) := by decide

/-- C2 and C4: the two halts at the start of a cycle. -/
theorem test_halts : after (step { machine [] with pc := 0xFFF }) (fun t => (t.mode, t.pc)) = some (.halted .normal, 0xFFF) ∧
    after (step { machine [] with inputs := [{ abort := true, key := none, rnd := 0 }] }) (fun t => (t.mode, t.pc)) =
      some (.halted .aborted, 0x200) := by decide
/-- C5, the second step: a word that does not decode. -/
theorem test_decode_error : runs { machine [] with pc := 0x202, last := some 0x6001, dt := 2 } 0x0000 (fun t => (t.mode, t.pc, t.dt)) =
    some (.halted (.fatal { kind := .decodeError, word := 0x0000, prev := some 0x6001, info := .none }), 0x204, 2) := by decide
/-- C7: an odd PC fetches. -/
theorem test_odd_pc : runs { machine [] with pc := 0x201 } 0x6A42 (fun t => (t.getV 0xA, t.pc)) = some (0x42, 0x203) := by decide
/-- The construction of P4 of 95 section 3: its two bytes at 0x200, and the reset PC. -/
theorem test_construct : (construct defaultConfig [0x00, 0xEE]).toOption.map (fun s => (s.readByte 0x200, s.readByte 0x201, s.pc)) =
    some (0x00, 0xEE, 0x200) := by decide

/-! ## Witnesses: for every statement with hypotheses, a state and operands that meet them, clause by clause -/

/-- EncodeOfDecode. -/
theorem witness_EncodeOfDecode : decode 0x8126 = .ok (.shr 0x1 0x2) := by decide

/-- DecodesAsTheUniqueRow: a word that decodes, one that does not, and a row of the map that fits. -/
theorem witness_DecodesAsTheUniqueRow : decode 0x6A42 = .ok (.ldImm 0xA 0x42) ∧ decode 0x00E1 = .error .opcode0 ∧
    ⟨0x6000, 0xF000⟩ ∈ opcodeMap ∧ 0x6A42#16 &&& 0xF000 = 0x6000 := by decide

/-- The word `w` at PC, the last place a word can stand. -/
def lastWord (w : Nat) (s : State) : State := State.withFetchWord { s with pc := 0xFFE } 16 w

/-- StepRunsTheDecodedInstruction, at the last PC that fetches. -/
theorem witness_StepRunsTheDecodedInstruction :
    (lastWord 0x1200 State.reset).mode = .running ∧ (lastWord 0x1200 State.reset).input.abort = false ∧
    (lastWord 0x1200 State.reset).pc.toNat + 2 ≤ memSize ∧
    decode (wordOfBytes ((lastWord 0x1200 State.reset).readByte (lastWord 0x1200 State.reset).pc.toNat)
      ((lastWord 0x1200 State.reset).readByte ((lastWord 0x1200 State.reset).pc.toNat + 1))) = .ok (.jp 0x200) := by decide

/-- WhatAStepAddsAroundExec: both kinds of end. -/
theorem witness_WhatAStepAddsAroundExec : State.reset.mode = .running ∧ (State.reset.halt .normal).mode ≠ .running := by decide

/-- TimersTickOncePerCompletedInstruction: a step that sets DT, one that sets ST, one that does neither, and one that does not complete. -/
theorem witness_TimersTickOncePerCompletedInstruction :
    (∃ t, step (State.reset.withFetchWord 16 0xF315) = .next t ∧ t.mode = .running) ∧
    (∃ t, step (State.reset.withFetchWord 16 0xF318) = .next t ∧ t.mode = .running) ∧
    (∃ t, step (State.reset.withFetchWord 16 0x6A42) = .next t ∧ t.mode = .running) ∧
    (∃ t, step (State.reset.withFetchWord 16 0xF30A) = .next t ∧ t.mode ≠ .running) :=
  ⟨⟨_, rfl, by decide⟩, ⟨_, rfl, by decide⟩, ⟨_, rfl, by decide⟩, ⟨_, rfl, by decide⟩⟩

/-- UndecodedWordHalts: the reset state itself, and at the last PC that fetches. -/
theorem witness_UndecodedWordHalts :
    FetchesWord State.reset ∧ decode (wordAtPc State.reset) = .error .opcode0 ∧
    FetchesWord (lastWord 0x5121 State.reset) ∧ decode (wordAtPc (lastWord 0x5121 State.reset)) = .error .nibble5 := by
  unfold FetchesWord; decide

/-- EndOfMemoryHaltsNormally: the lowest such PC, and the highest. -/
theorem witness_EndOfMemoryHaltsNormally :
    State.reset.mode = .running ∧ State.reset.input.abort = false ∧ memSize < (0xFFF : Word).toNat + 2 ∧
    memSize < (0xFFFF : Word).toNat + 2 ∧ ¬ memSize < (0xFFE : Word).toNat + 2 := by decide

/-- AbortHaltsBeforeAnythingElse: in both modes that step. -/
theorem witness_AbortHaltsBeforeAnythingElse :
    ({ State.reset with inputs := [⟨true, none, 0⟩] } : State).input.abort = true ∧
    ({ State.reset with inputs := [⟨true, none, 0⟩] } : State).mode = .running ∧
    ({ State.reset with inputs := [⟨true, some 1, 0⟩], mode := .waitKey 0x3 0xF30A } : State).input.abort = true := by decide

/-- StepsExactlyUnlessHalted: a state of each kind. -/
theorem witness_StepsExactlyUnlessHalted : (∀ r, State.reset.mode ≠ .halted r) ∧ (State.reset.halt .normal).mode = .halted .normal :=
  ⟨fun _ h => Mode.noConfusion h, rfl⟩

/-- FatalHaltIsPrecise: a return on the empty stack. -/
theorem witness_FatalHaltIsPrecise : (State.reset.withFetchWord 16 0x00EE).mode = .running ∧
    ∃ t, step (State.reset.withFetchWord 16 0x00EE) = .next t ∧ t.mode = .halted (.fatal ⟨.stackUnderflow, 0x00EE, none, .none⟩) :=
  ⟨by decide, _, rfl, by decide⟩

/-- OnlyTheNamedConditionsAreFatal: each of the four disjuncts is met, with `n` at its least and greatest. -/
theorem witness_OnlyTheNamedConditionsAreFatal :
    (∃ t, exec .ret State.reset = .next t ∧ t.mode = .halted (.fatal ⟨.stackUnderflow, 0x00EE, none, .none⟩)) ∧
    (∃ t, exec (.call 0x500) { State.reset with cfg := { defaultConfig with stackLimit := some 0 } } = .next t ∧
      t.mode = .halted (.fatal ⟨.stackOverflow, 0x2500, none, .limit 0⟩)) ∧
    (∃ t, exec (.drw 0x0 0x1 0xF) (canvas 0 0 0xFF2 .clip) = .next t ∧
      t.mode = .halted (.fatal ⟨.memoryOutOfBounds, 0xD01F, none, .address 0x1000⟩)) ∧
    (∃ t, exec (.ldRegs 0x0) (canvas 0 0 0x1000 .fault) = .next t ∧
      t.mode = .halted (.fatal ⟨.memoryOutOfBounds, 0xF065, none, .address 0x1000⟩)) ∧
    (∃ t, exec (.drw 0x0 0x1 0x1) (canvas 57 0 0x300 .fault) = .next t ∧
      t.mode = .halted (.fatal ⟨.drawOutOfBounds, 0xD011, none, .sprite 57 0 1⟩)) :=
  ⟨⟨_, rfl, by decide⟩, ⟨_, rfl, by decide⟩, ⟨_, rfl, by decide⟩, ⟨_, rfl, by decide⟩, ⟨_, rfl, by decide⟩⟩

/-- OnlyDestinationRegistersChange: an instruction that changes its register and VF. -/
theorem witness_OnlyDestinationRegistersChange :
    ∃ t, exec (.subReg 0x1 0x2) (machine [(0x2, 0x01)]) = .next t ∧ vf 0x1 t = (0xFF, 0x00) := ⟨_, rfl, by decide⟩

/-- IndexStackAndTimersChangeOnlyByTheirInstructions: each of the four parts changes somewhere. -/
theorem witness_IndexStackAndTimersChangeOnlyByTheirInstructions :
    (∃ t, exec (.ldF 0x0) (machine [(0x0, 0xFF)]) = .next t ∧ t.i ≠ State.reset.i) ∧
    (∃ t, exec (.call 0x300) State.reset = .next t ∧ t.stack ≠ State.reset.stack) ∧
    (∃ t, exec (.ldDtVx 0xF) (machine []) = .next t ∧ t.dt ≠ State.reset.dt) ∧
    (∃ t, exec (.ldStVx 0xF) (machine []) = .next t ∧ t.st ≠ State.reset.st) :=
  ⟨⟨_, rfl, by decide⟩, ⟨_, rfl, by decide⟩, ⟨_, rfl, by decide⟩, ⟨_, rfl, by decide⟩⟩

/-- PcChangesOnlyByControlFlow: a skip, a jump. -/
theorem witness_PcChangesOnlyByControlFlow :
    (∃ t, exec (.seReg 0x1 0x1) State.reset = .next t ∧ t.pc ≠ State.reset.pc) ∧
    (∃ t, exec (.jp 0x000) State.reset = .next t ∧ t.pc ≠ State.reset.pc) := ⟨⟨_, rfl, by decide⟩, ⟨_, rfl, by decide⟩⟩

/-- MemoryChangesOnlyInStoredBytes: a store over the last byte, and an instruction that stores nothing. -/
theorem witness_MemoryChangesOnlyInStoredBytes :
    (∃ t, exec (.stRegs 0xF) { machine [] with i := 0xFF0 } = .next t ∧ t.readByte 0xFFF = 0x55) ∧
    (∃ t, exec (.ldRegs 0xF) { machine [] with i := 0xFF0 } = .next t) := ⟨⟨_, rfl, by decide⟩, ⟨_, rfl⟩⟩

/-- ScreenChangesOnlyByDisplayInstructions. -/
theorem witness_ScreenChangesOnlyByDisplayInstructions :
    (∃ t, exec (.jp 0x300) State.reset = .next t) ∧ Instr.jp 0x300 ≠ .cls ∧ ∀ x y n, Instr.jp 0x300 ≠ .drw x y n :=
  ⟨⟨_, rfl⟩, by decide, fun _ _ _ h => Instr.noConfusion h⟩

/-- The reset state under one listed input. -/
def given (key : Option Nibble) (rnd : Byte) (n : Nat) : State := { State.reset with inputs := [input key rnd], inputNo := n }

/-- InputsAreReadOnlyByTheirInstructions: two states that differ in their inputs, agreeing in what SKP, and in what RND, reads. -/
theorem witness_InputsAreReadOnlyByTheirInstructions :
    (∃ t, exec (.skp 0x0) (given (some 0x0) 1 0) = .next t) ∧ (given (some 0x0) 1 0).input.key = (given (some 0x0) 2 7).input.key ∧
    (∃ t, exec (.rnd 0x0 0xFF) (given none 5 0) = .next t) ∧ (given none 5 0).input.rnd = (given (some 0x3) 5 7).input.rnd ∧
    given (some 0x3) 5 7 = { given none 5 0 with inputs := (given (some 0x3) 5 7).inputs, inputNo := 7 } :=
  ⟨⟨_, rfl⟩, rfl, ⟨_, rfl⟩, rfl, rfl⟩

/-- StepKeepsMemoryForm: a state with memory listed, a byte of 0 over the font among it, that stores. -/
theorem witness_StepKeepsMemoryForm :
    MemoryForm (State.withFetchWord { State.reset with mem := [(0x000, 0x00), (0xFFF, 0x01)] } 16 0xF055) ∧
    ∃ t, step (State.withFetchWord { State.reset with mem := [(0x000, 0x00), (0xFFF, 0x01)] } 16 0xF055) = .next t := by
  refine ⟨?_, _, rfl⟩
  unfold MemoryForm; decide

/-- PcAndStackBounds at every bound: PC at its highest, a return address at its highest, the stack at its limit. -/
theorem witness_StepKeepsPcAndStackBounds :
    PcAndStackBounds { State.reset with pc := 0x10FE, stack := [0x1000], cfg := { defaultConfig with stackLimit := some 1 } } ∧
    ∃ t, step { State.reset with pc := 0x10FE, stack := [0x1000], cfg := { defaultConfig with stackLimit := some 1 } } = .next t := by
  refine ⟨⟨by decide, List.forall_mem_singleton.2 (by decide), ?_⟩, _, rfl⟩
  intro d h
  cases h
  decide

/-- The state after D3 of 95 section 2.5, with `D011` at PC again: a pixel on, and its event. -/
def drawn : State :=
  { State.reset with
    i := 0x300, mem := [(0x200, 0xD0), (0x201, 0x11), (0x300, 0x80)]
    fb := Screen.put Screen.blank 0 0 true, events := [.cell 0 0 true, .flush] }

/-- StepKeepsRendererInAgreement: a state with a pixel on and its event, which draws there again. -/
theorem witness_StepKeepsRendererInAgreement : RendererAgrees drawn ∧ ∃ t, step drawn = .next t := ⟨rfl, _, rfl⟩

/-- ResetValuesByDecision: the last address of the font, and the first above it. -/
theorem witness_ResetValuesByDecision : 79 < fontSize ∧ fontSize ≤ 80 := by decide

/-- ConstructionLoadsFontAndProgram: the first length refused, the last accepted, and the ends of each range of addresses. -/
theorem witness_ConstructionLoadsFontAndProgram :
    maxProgram < (List.replicate 3585 (0x00 : Byte)).length ∧ (List.replicate 3584 (0x00 : Byte)).length ≤ maxProgram ∧
    3583 < (List.replicate 3584 (0x00 : Byte)).length ∧ 5 * 15 + 4 < fontSize ∧ fontSize ≤ 80 ∧ 0x1FF < programBase ∧
    programBase + (List.replicate 3583 (0x00 : Byte)).length ≤ 0xFFF := by
  simp only [List.length_replicate]; decide

/-- MemoryReadAfterWrite: the last address. -/
theorem witness_MemoryReadAfterWrite : 0xFFF < memSize ∧ ¬ 0x1000 < memSize := by decide

/-- BitSequencerReadsBackTheByte: both ends of the byte. -/
theorem witness_BitSequencerReadsBackTheByte : (0 < 8 ∧ 7 < 8) ∧ bitsMsb 0x69 = [false, true, true, false, true, false, false, true] := by
  decide

/-- DrawFits at its bounds: the lowest right corner under policy fault, the last 15 bytes of memory; off the grid under clip and wrap; and a
height of 0 with I and the anchor anywhere. -/
theorem witness_DrawFits :
    DrawFits (canvas 56 17 0xFF1 .fault) 56 17 15 ∧ DrawFits (canvas 63 31 0xFFF .clip) 63 31 1 ∧
    DrawFits (canvas 255 255 0x300 .wrap) 255 255 15 ∧ DrawFits (canvas 255 255 0xFFFF .fault) 255 255 0 := by
  unfold DrawFits; decide

/-- DrwTogglesCoveredCells: a draw that turns a cell off, and one that turns none off. -/
theorem witness_DrwTogglesCoveredCells :
    DrawFits (canvas 0 0 0x300 .fault) ((canvas 0 0 0x300 .fault).getV 0x0).toNat ((canvas 0 0 0x300 .fault).getV 0x1).toNat (1 : Nibble).toNat ∧
    (∃ t, exec (.drw 0x0 0x1 0x1) { canvas 0 0 0x300 .fault with fb := Screen.put Screen.blank 0 0 true } = .next t ∧ t.pixel 0 0 = false) ∧
    (∃ t, exec (.drw 0x0 0x1 0x1) (canvas 0 0 0x300 .fault) = .next t ∧ t.pixel 0 0 = true) := by
  refine ⟨by unfold DrawFits; decide, ⟨_, rfl, by decide⟩, ⟨_, rfl, by decide⟩⟩

/-- DrwReportsChangedCellsThenFlush: a draw of no row, which reports nothing. (One with cells is `test_drw_wrap`.) -/
theorem witness_DrwReportsChangedCellsThenFlush :
    DrawFits (canvas 9 9 0xFFFF .fault) ((canvas 9 9 0xFFFF .fault).getV 0x0).toNat ((canvas 9 9 0xFFFF .fault).getV 0x1).toNat (0 : Nibble).toNat ∧
    ∃ t, exec (.drw 0x0 0x1 0x0) (canvas 9 9 0xFFFF .fault) = .next t ∧ t.events = [] ∧ t.getV 0xF = 0 := by
  refine ⟨by unfold DrawFits; decide, _, rfl, by decide, by decide⟩

/-- DrwTwiceRestoresTheScreen. -/
theorem witness_DrwTwiceRestoresTheScreen :
    (0x0 : Nibble) ≠ 0xF ∧ (0x1 : Nibble) ≠ 0xF ∧
    DrawFits (canvas 60 0 0x301 .wrap) ((canvas 60 0 0x301 .wrap).getV 0x0).toNat ((canvas 60 0 0x301 .wrap).getV 0x1).toNat (1 : Nibble).toNat ∧
    ∃ t, exec (.drw 0x0 0x1 0x1) (canvas 60 0 0x301 .wrap) = .next t ∧ t.pixel 3 0 = true := by
  refine ⟨by decide, by decide, by unfold DrawFits; decide, _, rfl, by decide⟩

/-- DrwTraps: one byte too many; one column and one row too many, with the sprite in memory. -/
theorem witness_DrwTraps :
    0 < (0x2 : Nibble).toNat ∧ memSize < (canvas 0 0 0xFFF .clip).i.toNat + (0x2 : Nibble).toNat ∧
    (canvas 57 0 0xFFE .fault).i.toNat + (0x2 : Nibble).toNat ≤ memSize ∧ (canvas 57 0 0xFFE .fault).cfg.edge = .fault ∧
    fbWidth < ((canvas 57 0 0xFFE .fault).getV 0x0).toNat + 8 ∧
    fbHeight < ((canvas 0 31 0xFFE .fault).getV 0x1).toNat + (0x2 : Nibble).toNat := by decide

/-- RetPopsOrUnderflows. -/
theorem witness_RetPopsOrUnderflows :
    ({ State.reset with stack := [0x1000, 0x202] } : State).stack = 0x1000 :: [0x202] ∧ State.reset.stack = [] := ⟨rfl, rfl⟩

/-- CallPushesOrOverflows: no limit, a limit just not reached, and a limit reached. -/
theorem witness_CallPushesOrOverflows :
    (∀ d, State.reset.cfg.stackLimit = some d → State.reset.stack.length < d) ∧
    (∀ d, ({ defaultConfig with stackLimit := some 1 } : Config).stackLimit = some d → State.reset.stack.length < d) ∧
    (({ defaultConfig with stackLimit := some 0 } : Config).stackLimit = some 0 ∧ 0 ≤ State.reset.stack.length) :=
  ⟨fun _ h => (by cases h), fun _ h => (by cases h; decide), rfl, by decide⟩

/-- ReturnComesBackToTheCall: a state reached from the call by anything that leaves the stack. -/
theorem witness_ReturnComesBackToTheCall :
    (∀ d, State.reset.cfg.stackLimit = some d → State.reset.stack.length < d) ∧
    ∃ t, ∃ u : State, exec (.call 0x400) State.reset = .next t ∧ u.stack = t.stack ∧ u.pc = 0x40A :=
  ⟨fun _ h => (by cases h), _, { State.reset with pc := 0x40A, stack := [0x200] }, rfl, rfl, rfl⟩

/-- AddAndSubtractSetVf and ShiftsSetVfToBitZero: a destination other than VF. (VF itself: `test_addReg_vf`, `test_shl_vf`.) -/
theorem witness_AddAndSubtractSetVf : (0xE : Nibble) ≠ 0xF := by decide

/-- ShiftsSetVfToBitZero. -/
theorem witness_ShiftsSetVfToBitZero : (0xE : Nibble) ≠ 0xF := by decide

/-- BcdStoresThreeDigits: the last I in range. -/
theorem witness_BcdStoresThreeDigits : ({ State.reset with i := 0xFFD } : State).i.toNat + 2 < memSize := by decide

/-- BlockStoreWritesRegisters: the last I in range for every register; both ends of `r`. -/
theorem witness_BlockStoreWritesRegisters :
    ({ State.reset with i := 0xFF0 } : State).i.toNat + (0xF : Nibble).toNat < memSize ∧ (0x0 : Nibble) ≤ 0xF ∧ (0xF : Nibble) ≤ 0xF := by decide

/-- BlockLoadReadsRegisters: the last I in range; a register loaded, and one above `x`. -/
theorem witness_BlockLoadReadsRegisters :
    ({ State.reset with i := 0xFF1 } : State).i.toNat + (0xE : Nibble).toNat < memSize ∧ (0xE : Nibble) ≤ 0xE ∧ (0xE : Nibble) < 0xF := by decide

/-- BlockTransfersTrapOutOfBounds: the first I out of range of each, and the highest I. -/
theorem witness_BlockTransfersTrapOutOfBounds :
    memSize ≤ ({ State.reset with i := 0xFFE } : State).i.toNat + 2 ∧ memSize ≤ ({ State.reset with i := 0xFF1 } : State).i.toNat + (0xF : Nibble).toNat ∧
    memSize ≤ ({ State.reset with i := 0xFFFF } : State).i.toNat + (0x0 : Nibble).toNat := by decide

/-- StoredBytesAreFetchedNext: both bounds of each clause, and a store of the word's high byte, its low byte, and both. -/
theorem witness_StoredBytesAreFetchedNext :
    (0xFFE : Word).toNat + 2 ≤ memSize ∧ (0xFFD : Word).toNat + 2 < memSize ∧ (0xFF0 : Word).toNat + (0xF : Nibble).toNat < memSize ∧
    wordAfterStore { machine [] with i := 0x300, pc := 0x302, mem := [(0x302, 0x11), (0x303, 0x22)] } 3 (fun _ => 0xEE) = 0xEE22 ∧
    wordAfterStore { machine [] with i := 0x303, pc := 0x302, mem := [(0x302, 0x11), (0x303, 0x22)] } 3 (fun _ => 0xEE) = 0x11EE ∧
    wordAfterStore { machine [] with i := 0x302, pc := 0x302, mem := [(0x302, 0x11), (0x303, 0x22)] } 3 (fun k => BitVec.ofNat 8 k) = 0x0001 := by
  decide

/-- KeySkipsNeedAKey: no key, and the highest key. -/
theorem witness_KeySkipsNeedAKey : (given none 0 0).input.key = none ∧ (given (some 0xF) 0 0).input.key = some 0xF := ⟨rfl, rfl⟩

/-- KeyWaitSuspends: at the last PC that fetches. -/
theorem witness_KeyWaitSuspends : Fetches (lastWord 0xF30A State.reset) (.ldVxK 0x3) := by
  unfold Fetches FetchesWord; decide

/-- KeyCompletesTheWait: a wait on VF. -/
theorem witness_KeyCompletesTheWait :
    ({ given (some 0xF) 0 0 with mode := .waitKey 0xF 0xFF0A } : State).mode = .waitKey 0xF 0xFF0A ∧
    ({ given (some 0xF) 0 0 with mode := .waitKey 0xF 0xFF0A } : State).input.abort = false ∧
    ({ given (some 0xF) 0 0 with mode := .waitKey 0xF 0xFF0A } : State).input.key = some 0xF := ⟨rfl, rfl, rfl⟩

/-- WaitWithoutKeyChangesNothing: a step without a key; two such steps, with a third input that has one. -/
theorem witness_WaitWithoutKeyChangesNothing :
    ({ State.reset with mode := .waitKey 0x3 0xF30A } : State).mode = .waitKey 0x3 0xF30A ∧
    ({ given none 0 0 with mode := .waitKey 0x3 0xF30A } : State).input.abort = false ∧
    ({ given none 0 0 with mode := .waitKey 0x3 0xF30A } : State).input.key = none ∧
    2 ≤ [input none 0, input none 1, input (some 0xC) 2].length ∧
    ∀ e ∈ [input none 0, input none 1, input (some 0xC) 2].take 2, e.abort = false ∧ e.key = none := by decide

/-- ReadDelayTimerBeforeTheTick. -/
theorem witness_ReadDelayTimerBeforeTheTick : Fetches (lastWord 0xF407 State.reset) (.ldVxDt 0x4) := by
  unfold Fetches FetchesWord; decide

/-- TimersSetThenTicked. -/
theorem witness_TimersSetThenTicked :
    Fetches (lastWord 0xF315 State.reset) (.ldDtVx 0x3) ∧ Fetches (lastWord 0xFF18 State.reset) (.ldStVx 0xF) := by
  unfold Fetches FetchesWord; decide

end Sys2Proof.Tests
end

section
/-! PROOFS. The frames of the state's parts (10_state.md): which part of the state which shape of effect can change, and the reset values. -/

namespace Sys2Proof.Machine

open Sys2Proof.Safety

/-! ### draw -/

@[simp] theorem State.draw_i (s : State) (cx cy : Nat) (rows : List Byte) : (s.draw cx cy rows).i = s.i := rfl
@[simp] theorem State.draw_pc (s : State) (cx cy : Nat) (rows : List Byte) : (s.draw cx cy rows).pc = s.pc := rfl
@[simp] theorem State.draw_stack (s : State) (cx cy : Nat) (rows : List Byte) : (s.draw cx cy rows).stack = s.stack := rfl
@[simp] theorem State.draw_dt (s : State) (cx cy : Nat) (rows : List Byte) : (s.draw cx cy rows).dt = s.dt := rfl
@[simp] theorem State.draw_st (s : State) (cx cy : Nat) (rows : List Byte) : (s.draw cx cy rows).st = s.st := rfl
@[simp] theorem State.draw_mem (s : State) (cx cy : Nat) (rows : List Byte) : (s.draw cx cy rows).mem = s.mem := rfl
@[simp] theorem State.draw_mode (s : State) (cx cy : Nat) (rows : List Byte) : (s.draw cx cy rows).mode = s.mode := rfl
@[simp] theorem State.draw_last (s : State) (cx cy : Nat) (rows : List Byte) : (s.draw cx cy rows).last = s.last := rfl
@[simp] theorem State.draw_cfg (s : State) (cx cy : Nat) (rows : List Byte) : (s.draw cx cy rows).cfg = s.cfg := rfl
@[simp] theorem State.draw_inputs (s : State) (cx cy : Nat) (rows : List Byte) : (s.draw cx cy rows).inputs = s.inputs := rfl
@[simp] theorem State.draw_inputNo (s : State) (cx cy : Nat) (rows : List Byte) : (s.draw cx cy rows).inputNo = s.inputNo := rfl

/-- Of the general registers a draw writes VF alone (41 R134). -/
theorem State.getV_draw_of_ne (s : State) (cx cy : Nat) (rows : List Byte) (r : Nibble) (h : r ≠ 0xF) :
    (s.draw cx cy rows).getV r = s.getV r :=
  State.getV_setV_ne _ 0xF r _ h

/-- A skip that moves PC moves it by exactly one word (42 R158). -/
theorem State.skipIf_pc_of_ne {s : State} {c : Bool} (h : (s.skipIf c).pc ≠ s.pc) : (s.skipIf c).pc = s.pc + 2 := by
  cases c with
  | true => rfl
  | false => exact absurd rfl h

/-! ### What each shape of effect can change -/

section Frames
variable {i : Instr} {s t : State}

/-- Registers are written by a register effect, inside the destinations, and by a draw, in VF; by nothing else. -/
theorem Effect.keepsRegsBut_destinations (h : Effect i s t) : KeepsRegsBut (destinations i) s t := by
  intro r hr
  cases h with
  | regs _ _ v hv => exact hv r hr
  | drawn x y n => exact s.getV_draw_of_ne _ _ _ r (by simpa [destinations] using hr)
  | popped => rfl
  | _ => simp

theorem Effect.i_changes (h : Effect i s t) : t.i ≠ s.i → (∃ a, i = .ldI a) ∨ (∃ x, i = .addI x) ∨ ∃ x, i = .ldF x := by
  cases h with
  | index _ _ _ hi => exact fun _ => hi
  | _ => simp

theorem Effect.stack_changes (h : Effect i s t) : t.stack ≠ s.stack → i = .ret ∨ ∃ a, i = .call a := by
  cases h with
  | popped => exact fun _ => .inl rfl
  | pushed addr => exact fun _ => .inr ⟨addr, rfl⟩
  | _ => simp

theorem Effect.dt_changes (h : Effect i s t) : t.dt ≠ s.dt → ∃ x, i = .ldDtVx x := by
  cases h with
  | delaySet x => exact fun _ => ⟨x, rfl⟩
  | _ => simp

theorem Effect.st_changes (h : Effect i s t) : t.st ≠ s.st → ∃ x, i = .ldStVx x := by
  cases h with
  | soundSet x => exact fun _ => ⟨x, rfl⟩
  | _ => simp

/-- No effect touches the last word, which only the retire writes (40 R108), nor the model's own fields (log 1, 4). -/
theorem Effect.keeps_last_cfg_inputs (h : Effect i s t) :
    t.last = s.last ∧ t.cfg = s.cfg ∧ t.inputs = s.inputs ∧ t.inputNo = s.inputNo := by
  cases h <;> simp

/-- PC is moved by 2 by the three kinds of skip, and overwritten by the jumps, the call and the return. -/
theorem Effect.pc_changes (h : Effect i s t) : t.pc ≠ s.pc →
    (t.pc = s.pc + 2 ∧ ((∃ x kk, i = .seImm x kk ∨ i = .sneImm x kk) ∨ (∃ x y, i = .seReg x y ∨ i = .sneReg x y) ∨
        ∃ x, i = .skp x ∨ i = .sknp x)) ∨
    i = .ret ∨ ∃ addr, i = .jp addr ∨ i = .call addr ∨ i = .jpV0 addr := by
  cases h with
  | skipImm _ _ x kk c hi => exact fun hpc => .inl ⟨State.skipIf_pc_of_ne hpc, .inl ⟨x, kk, hi⟩⟩
  | skipReg _ _ x y c hi => exact fun hpc => .inl ⟨State.skipIf_pc_of_ne hpc, .inr (.inl ⟨x, y, hi⟩)⟩
  | skipKey _ _ x c hi => exact fun hpc => .inl ⟨State.skipIf_pc_of_ne hpc, .inr (.inr ⟨x, hi⟩)⟩
  | popped => exact fun _ => .inr (.inl rfl)
  | jump addr => exact fun _ => .inr (.inr ⟨addr, .inl rfl⟩)
  | pushed addr => exact fun _ => .inr (.inr ⟨addr, .inr (.inl rfl)⟩)
  | jumpV0 addr => exact fun _ => .inr (.inr ⟨addr, .inr (.inr rfl)⟩)
  | _ => simp

/-- The screen and the event stream are touched by the clearing and the drawing effect alone. -/
theorem Effect.keeps_screen_events (h : Effect i s t) (hcls : i ≠ .cls) (hdrw : ∀ x y n, i ≠ .drw x y n) :
    (∀ c r, t.pixel c r = s.pixel c r) ∧ t.events = s.events := by
  cases h with
  | cleared => exact absurd rfl hcls
  | drawn x y n => exact absurd rfl (hdrw x y n)
  | regs | popped => exact ⟨fun _ _ => rfl, rfl⟩
  | _ => simp

end Frames

/-! ### The obligations -/

/-- Settles O17, from the shapes of effect. -/
theorem onlyDestinationRegistersChange : Obligations.OnlyDestinationRegistersChange :=
  fun _ _ _ h => (effect_of_exec h).keepsRegsBut_destinations

/-- Settles O18, from the shapes of effect, part by part. -/
theorem indexStackAndTimersChangeOnlyByTheirInstructions : Obligations.IndexStackAndTimersChangeOnlyByTheirInstructions := by
  intro i s t h
  have e := effect_of_exec h
  exact ⟨e.i_changes, e.stack_changes, e.dt_changes, e.st_changes, e.keeps_last_cfg_inputs⟩

/-- Settles O19, from the shapes of effect. -/
theorem pcChangesOnlyByControlFlow : Obligations.PcChangesOnlyByControlFlow :=
  fun _ _ _ h => (effect_of_exec h).pc_changes

/-- Settles O21, from the shapes of effect. -/
theorem screenChangesOnlyByDisplayInstructions : Obligations.ScreenChangesOnlyByDisplayInstructions :=
  fun _ _ _ h => (effect_of_exec h).keeps_screen_events

/-- Settles O27: each value is a field of `State.reset`. -/
theorem resetValuesOfTheSource : Obligations.ResetValuesOfTheSource := ⟨rfl, rfl, rfl, rfl⟩

end Sys2Proof.Machine
end

section
/-! PROOFS. Memory (20_memory.md): a byte written is read back, and nothing else changes. -/

namespace Sys2Proof.Machine

open Sys2Proof.Safety

/-- The frame of every store (20 R53): a state that differs in its memory alone keeps each part but memory. -/
theorem keepsAllBut_memory_of_mem (s : State) (m : Memory) : KeepsAllBut [.memory] s { s with mem := m } := by
  intro p hp
  cases p with
  | memory => exact absurd (List.mem_singleton_self _) hp
  | regs => exact fun _ => rfl
  | screen => exact fun _ _ => rfl
  | inputs => exact ⟨rfl, rfl⟩
  | index | pc | stack | delay | sound | mode | last | config | events => exact rfl

/-- Settles O30, from the reading rule of a written byte and the frame of a store. -/
theorem memoryReadAfterWrite : Obligations.MemoryReadAfterWrite :=
  fun s a b v ha => ⟨s.readByte_writeByte a b v ha, keepsAllBut_memory_of_mem s _⟩

end Sys2Proof.Machine
end

section
/-! PROOFS. The decoder and the encoder (30_encoding.md): each undoes the other, the words refused are those of R78 to R82, and a word has
one row of the map exactly when it decodes. -/

namespace Sys2Proof

/-! ### The operands of a word -/

section Fields
variable (op x y n : Nibble) (kk : Byte)

@[simp] theorem yField_xkk : yField (op ++ x ++ kk) = kk.extractLsb' 4 4 := by
  apply BitVec.eq_of_toNat_eq
  have := kk.isLt
  rw [yField_toNat, word_xkk_toNat, BitVec.extractLsb'_toNat, Nat.shiftRight_eq_div_pow]; omega

@[simp] theorem nField_xkk : nField (op ++ x ++ kk) = kk.extractLsb' 0 4 := by
  apply BitVec.eq_of_toNat_eq
  rw [nField_toNat, word_xkk_toNat, BitVec.extractLsb'_toNat, Nat.shiftRight_eq_div_pow]; omega

end Fields

/-- The byte operand is the two low nibbles (30 R72). -/
theorem kkField_eq_append (w : Word) : kkField w = yField w ++ nField w := by
  apply BitVec.eq_of_toNat_eq
  rw [append_toNat, kkField_toNat, yField_toNat, nField_toNat]; omega

/-- The address operand is the three low nibbles (30 R73). -/
theorem addrField_eq_append (w : Word) : addrField w = xField w ++ yField w ++ nField w := by
  apply BitVec.eq_of_toNat_eq
  rw [append_toNat, append_toNat, addrField_toNat, xField_toNat, yField_toNat, nField_toNat]; omega

theorem opField_and (w m : Word) : opField (w &&& m) = opField w &&& opField m := BitVec.extractLsb'_and

theorem nField_and (w m : Word) : nField (w &&& m) = nField w &&& nField m := BitVec.extractLsb'_and

theorem kkField_and (w m : Word) : kkField (w &&& m) = kkField w &&& kkField m := BitVec.extractLsb'_and

theorem splitWord_joinFields (f : Fields) : splitWord (joinFields f) = f := by
  simp [splitWord, joinFields]

/-! ### A word rebuilt from what the decoder has compared and read -/

section Rebuilt
variable {w : Word} {op : Nat}

theorem opField_eq_ofNat (h : (opField w).toNat = op) : opField w = BitVec.ofNat 4 op := by
  rw [← h, BitVec.ofNat_toNat, BitVec.setWidth_eq]

theorem word_of_nnn (h : (opField w).toNat = op) : BitVec.ofNat 4 op ++ addrField w = w := by
  rw [← opField_eq_ofNat h]; exact word_eq_nnn w

theorem word_of_xkk (h : (opField w).toNat = op) : BitVec.ofNat 4 op ++ xField w ++ kkField w = w := by
  rw [← opField_eq_ofNat h]; exact word_eq_xkk w

theorem word_of_xff {kk : Byte} (h : (opField w).toNat = op) (hk : kkField w = kk) : BitVec.ofNat 4 op ++ xField w ++ kk = w :=
  hk ▸ word_of_xkk h

theorem word_of_xyn (h : (opField w).toNat = op) : BitVec.ofNat 4 op ++ xField w ++ yField w ++ nField w = w := by
  rw [← opField_eq_ofNat h]; exact word_eq_xyn w

theorem word_of_xyf {n : Nibble} (h : (opField w).toNat = op) (hn : nField w = n) :
    BitVec.ofNat 4 op ++ xField w ++ yField w ++ n = w :=
  hn ▸ word_of_xyn h

end Rebuilt

/-! ### What the decoder can answer -/

/-- The words of primary opcode 0 (30 R78). -/
def words0 : List Word := [0x00E0, 0x00EE]

/-- The function nibbles of primary opcode 8 (30 R79). -/
def functions8 : List Nibble := [0x0, 0x1, 0x2, 0x3, 0x4, 0x5, 0x6, 0x7, 0xE]

/-- The function bytes of primary opcode E (30 R81). -/
def bytesE : List Byte := [0x9E, 0xA1]

/-- The function bytes of primary opcode F (30 R82). -/
def bytesF : List Byte := [0x07, 0x0A, 0x15, 0x18, 0x1E, 0x29, 0x33, 0x55, 0x65]

/-- Every answer the decoder can give for a word: an instruction whose word it is, or a refusal under the name of the place of 30 R78 to
R82 in which the word lies. -/
inductive Decoded (w : Word) : Except Reject Instr → Prop
  | instr (i : Instr) (h : encode i = w) : Decoded w (.ok i)
  | opcode0 (hop : opField w = 0x0) (hw : w ∉ words0) : Decoded w (.error .opcode0)
  | nibble5 (hop : opField w = 0x5) (hn : nField w ≠ 0x0) : Decoded w (.error .nibble5)
  | function8 (hop : opField w = 0x8) (hn : nField w ∉ functions8) : Decoded w (.error .function8)
  | nibble9 (hop : opField w = 0x9) (hn : nField w ≠ 0x0) : Decoded w (.error .nibble9)
  | byteE (hop : opField w = 0xE) (hk : kkField w ∉ bytesE) : Decoded w (.error .byteE)
  | byteF (hop : opField w = 0xF) (hk : kkField w ∉ bytesF) : Decoded w (.error .byteF)

section Decoded
variable {w : Word}

theorem decoded_decode0 (hop : (opField w).toNat = 0x0) : Decoded w (decode0 w) := by
  unfold decode0
  split_ifs with h1 h2
  · exact .instr _ h1.symm
  · exact .instr _ h2.symm
  · exact .opcode0 (opField_eq_ofNat hop) (by simpa [words0] using ⟨h1, h2⟩)

theorem decoded_decode8 (hop : (opField w).toNat = 0x8) : Decoded w (decode8 w) := by
  unfold decode8
  split
  case h_10 => exact .function8 (opField_eq_ofNat hop) (by simp_all [functions8, ← BitVec.toNat_inj])
  all_goals next hn => exact .instr _ (word_of_xyf hop (BitVec.eq_of_toNat_eq hn))

theorem decoded_decodeE (hop : (opField w).toNat = 0xE) : Decoded w (decodeE w) := by
  unfold decodeE
  split_ifs with h1 h2
  · exact .instr _ (word_of_xff hop h1)
  · exact .instr _ (word_of_xff hop h2)
  · exact .byteE (opField_eq_ofNat hop) (by simpa [bytesE] using ⟨h1, h2⟩)

theorem decoded_decodeF (hop : (opField w).toNat = 0xF) : Decoded w (decodeF w) := by
  unfold decodeF
  split_ifs
  case neg => exact .byteF (opField_eq_ofNat hop) (by simp_all [bytesF])
  all_goals exact .instr _ (word_of_xff hop ‹_›)

/-- The decoder's answer is one of them: the branches of its dispatch, format by format. -/
theorem decoded_decode (w : Word) : Decoded w (decode w) := by
  unfold decode
  split
  case h_1 hop => exact decoded_decode0 hop
  case h_2 hop | h_3 hop | h_11 hop | h_12 hop => exact .instr _ (word_of_nnn hop)
  case h_4 hop | h_5 hop | h_7 hop | h_8 hop | h_13 hop => exact .instr _ (word_of_xkk hop)
  case h_6 hop =>
    split_ifs with hn
    · exact .instr _ (word_of_xyf hop hn)
    · exact .nibble5 (opField_eq_ofNat hop) hn
  case h_9 hop => exact decoded_decode8 hop
  case h_10 hop =>
    split_ifs with hn
    · exact .instr _ (word_of_xyf hop hn)
    · exact .nibble9 (opField_eq_ofNat hop) hn
  case h_14 hop => exact .instr _ (word_of_xyn hop)
  case h_15 hop => exact decoded_decodeE hop
  case h_16 =>
    have := (opField w).isLt
    exact decoded_decodeF (by simp only [imp_false] at *; omega)

end Decoded

/-! ### Encoding and decoding undo each other -/

/-- The word of an instruction carries its operands in the fields its format reads (30 R76), and its literal bits select its branch. -/
theorem decode_encode (i : Instr) : decode (encode i) = .ok i := by
  cases i
  case cls | ret => rfl
  case ldReg | orReg | andReg | xorReg | addReg | subReg | shr | subnReg | shl => simp [encode, decode, decode8]
  case skp | sknp => simp [encode, decode, decodeE]
  case ldVxDt | ldVxK | ldDtVx | ldStVx | addI | ldF | ldB | stRegs | ldRegs => simp [encode, decode, decodeF]
  all_goals simp [encode, decode]

theorem encode_of_decode {w : Word} {i : Instr} (h : decode w = .ok i) : encode i = w := by
  have d := decoded_decode w
  rw [h] at d
  cases d with
  | instr _ hw => exact hw

/-! ### The rows of the opcode map -/

theorem encodedRow (i : Instr) : Laws.EncodedRow.Statement i :=
  open Laws.EncodedRow in
  match i with
  | .cls => cls | .ret => ret | .jp a => jp a | .call a => call a | .seImm x k => seImm x k | .sneImm x k => sneImm x k
  | .seReg x y => seReg x y | .ldImm x k => ldImm x k | .addImm x k => addImm x k | .ldReg x y => ldReg x y
  | .orReg x y => orReg x y | .andReg x y => andReg x y | .xorReg x y => xorReg x y | .addReg x y => addReg x y
  | .subReg x y => subReg x y | .shr x y => shr x y | .subnReg x y => subnReg x y | .shl x y => shl x y
  | .sneReg x y => sneReg x y | .ldI a => ldI a | .jpV0 a => jpV0 a | .rnd x k => rnd x k | .drw x y n => drw x y n
  | .skp x => skp x | .sknp x => sknp x | .ldVxDt x => ldVxDt x | .ldVxK x => ldVxK x | .ldDtVx x => ldDtVx x
  | .ldStVx x => ldStVx x | .addI x => addI x | .ldF x => ldF x | .ldB x => ldB x | .stRegs x => stRegs x | .ldRegs x => ldRegs x

/-- An instruction is encoded as its own row says, once its word's number is known to be the row's match plus the operands. -/
theorem encodedAs_rowOf {i : Instr} {operands : Nat} (h : (encode i).toNat = (rowOf i).bits.toNat + operands) :
    Safety.EncodedAs i (rowOf i).bits (rowOf i).mask operands :=
  ⟨(encodedRow i).1, (encodedRow i).2, h, decode_encode i⟩

/-- No two different rows of the map agree where both compare. -/
theorem eq_of_rows_agree : ∀ r ∈ opcodeMap, ∀ r' ∈ opcodeMap, r.bits &&& r'.mask = r'.bits &&& r.mask → r = r' := by decide

theorem row_unique {w : Word} {r r' : Row} (hr : r ∈ opcodeMap) (hr' : r' ∈ opcodeMap)
    (h : w &&& r.mask = r.bits) (h' : w &&& r'.mask = r'.bits) : r = r' :=
  eq_of_rows_agree r hr r' hr' (by rw [← h, ← h', BitVec.and_assoc, BitVec.and_assoc, BitVec.and_comm r.mask])

section Fits
variable {w : Word} {r : Row}

/-- Every row compares the op nibble. -/
theorem opField_of_fits (hr : r ∈ opcodeMap) (h : w &&& r.mask = r.bits) : opField w = opField r.bits := by
  have hm : opField r.mask = BitVec.allOnes 4 := (by decide : ∀ r ∈ opcodeMap, opField r.mask = BitVec.allOnes 4) r hr
  rw [← h, opField_and, hm, BitVec.and_allOnes]

theorem nField_of_fits (hm : nField r.mask = BitVec.allOnes 4) (h : w &&& r.mask = r.bits) : nField w = nField r.bits := by
  rw [← h, nField_and, hm, BitVec.and_allOnes]

theorem kkField_of_fits (hm : kkField r.mask = BitVec.allOnes 8) (h : w &&& r.mask = r.bits) : kkField w = kkField r.bits := by
  rw [← h, kkField_and, hm, BitVec.and_allOnes]

/-- A refused word fits no row: in each place of 30 R78 to R82, the rows of that op nibble compare the very field that was refused. -/
theorem not_fits_of_refused {e : Reject} (hd : decode w = .error e) (hr : r ∈ opcodeMap) : w &&& r.mask ≠ r.bits := by
  intro h
  have hb := opField_of_fits hr h
  have d := decoded_decode w
  rw [hd] at d
  cases d with
  | opcode0 hop hw =>
    have rows : ∀ r ∈ opcodeMap, opField r.bits = 0x0 → r.mask = BitVec.allOnes 16 ∧ r.bits ∈ words0 := by decide
    obtain ⟨hm, hmem⟩ := rows r hr (hb ▸ hop)
    rw [hm, BitVec.and_allOnes] at h
    exact hw (h ▸ hmem)
  | nibble5 hop hn | nibble9 hop hn =>
    have rows : ∀ r ∈ opcodeMap, opField r.bits = 0x5 ∨ opField r.bits = 0x9 →
      nField r.mask = BitVec.allOnes 4 ∧ nField r.bits = 0x0 := by decide
    obtain ⟨hm, hzero⟩ := rows r hr (by simp [← hb, hop])
    exact hn (nField_of_fits hm h ▸ hzero)
  | function8 hop hn =>
    have rows : ∀ r ∈ opcodeMap, opField r.bits = 0x8 → nField r.mask = BitVec.allOnes 4 ∧ nField r.bits ∈ functions8 := by decide
    obtain ⟨hm, hmem⟩ := rows r hr (hb ▸ hop)
    exact hn (nField_of_fits hm h ▸ hmem)
  | byteE hop hk =>
    have rows : ∀ r ∈ opcodeMap, opField r.bits = 0xE → kkField r.mask = BitVec.allOnes 8 ∧ kkField r.bits ∈ bytesE := by decide
    obtain ⟨hm, hmem⟩ := rows r hr (hb ▸ hop)
    exact hk (kkField_of_fits hm h ▸ hmem)
  | byteF hop hk =>
    have rows : ∀ r ∈ opcodeMap, opField r.bits = 0xF → kkField r.mask = BitVec.allOnes 8 ∧ kkField r.bits ∈ bytesF := by decide
    obtain ⟨hm, hmem⟩ := rows r hr (hb ▸ hop)
    exact hk (kkField_of_fits hm h ▸ hmem)

end Fits

/-! ### Well-formed fields -/

/-- The word of an instruction has well-formed fields. -/
theorem wellFormed_encode (i : Instr) : (splitWord (encode i)).wellFormed = true := by
  cases i
  case cls | ret => rfl
  all_goals simp [splitWord, encode, Fields.wellFormed]

/-- What the check of 30 R78 to R82 accepts under an op nibble is what the decoder takes. -/
theorem mem_words0_of_wellFormed (x y n : Nibble) (h : Fields.wellFormed ⟨0x0, x, y, n⟩ = true) : (0x0#4 ++ x ++ y ++ n : Word) ∈ words0 := by
  obtain ⟨rfl, rfl, rfl | rfl⟩ : x = 0x0 ∧ y = 0xE ∧ (n = 0x0 ∨ n = 0xE) := by simpa [Fields.wellFormed, and_assoc] using h
  · decide
  · decide

theorem mem_functions8_of_wellFormed (x y : Nibble) : ∀ n, Fields.wellFormed ⟨0x8, x, y, n⟩ = true → n ∈ functions8 :=
  (by decide : ∀ n, Fields.wellFormed ⟨0x8, 0x0, 0x0, n⟩ = true → n ∈ functions8)

theorem mem_bytesE_of_wellFormed (x : Nibble) : ∀ y n, Fields.wellFormed ⟨0xE, x, y, n⟩ = true → (y ++ n : Byte) ∈ bytesE :=
  (by decide : ∀ y n, Fields.wellFormed ⟨0xE, 0x0, y, n⟩ = true → (y ++ n : Byte) ∈ bytesE)

theorem mem_bytesF_of_wellFormed (x : Nibble) : ∀ y n, Fields.wellFormed ⟨0xF, x, y, n⟩ = true → (y ++ n : Byte) ∈ bytesF :=
  (by decide : ∀ y n, Fields.wellFormed ⟨0xF, 0x0, y, n⟩ = true → (y ++ n : Byte) ∈ bytesF)

/-- The fields of a refused word are not well-formed: in each place of 30 R78 to R82, what was refused is what the check does not accept. -/
theorem not_wellFormed_of_refused {w : Word} {e : Reject} (hd : decode w = .error e) : ¬ (splitWord w).wellFormed = true := by
  intro h
  have d := decoded_decode w
  rw [hd] at d
  unfold splitWord at h
  cases d with
  | opcode0 hop hw =>
    rw [← word_eq_xyn w, hop] at hw
    exact hw (mem_words0_of_wellFormed _ _ _ (hop ▸ h))
  | nibble5 hop hn | nibble9 hop hn => exact hn (by simpa [Fields.wellFormed, hop] using h)
  | function8 hop hn => exact hn (mem_functions8_of_wellFormed _ _ _ (hop ▸ h))
  | byteE hop hk => exact hk (kkField_eq_append w ▸ mem_bytesE_of_wellFormed _ _ _ (hop ▸ h))
  | byteF hop hk => exact hk (kkField_eq_append w ▸ mem_bytesF_of_wellFormed _ _ _ (hop ▸ h))

/-! ### The obligations -/

/-- Settles O2, from the fields of each format's word. -/
theorem decodeOfEncode : Obligations.DecodeOfEncode := decode_encode

/-- Settles O3, from the answers the decoder can give. -/
theorem encodeOfDecode : Obligations.EncodeOfDecode := fun _ _ => encode_of_decode

/-- Settles O5: a word that decodes is its instruction's, which fits its own row, and no two rows fit one word. -/
theorem decodesAsTheUniqueRow : Obligations.DecodesAsTheUniqueRow := by
  refine ⟨rfl, fun w i h => ?_, fun w e h r hr => not_fits_of_refused h hr⟩
  obtain ⟨hmem, hfits⟩ := encodedRow i
  rw [encode_of_decode h] at hfits
  exact ⟨hmem, hfits, fun r hr hr' => row_unique hr hmem hr' hfits⟩

/-- Settles O6: a word that decodes is its instruction's, whose fields are well-formed; those of a refused word are not. -/
theorem decodesExactlyWellFormedFields : Obligations.DecodesExactlyWellFormedFields := by
  intro w
  constructor
  · rintro ⟨i, h⟩
    exact encode_of_decode h ▸ wellFormed_encode i
  · intro h
    cases hd : decode w with
    | ok i => exact ⟨i, rfl⟩
    | error e => exact absurd h (not_wellFormed_of_refused hd)

/-- Settles O1: the decoder run on each word. -/
theorem sampleWordsDecode : Obligations.SampleWordsDecode := by
  unfold Obligations.SampleWordsDecode; decide

/-- Settles O4, from the fields on the naturals and the word rebuilt from them. -/
theorem fieldsOfAWordAndBack : Obligations.FieldsOfAWordAndBack :=
  ⟨splitWord_joinFields, rfl, rfl, fun w => ⟨word_eq_xyn w, opField_toNat w, xField_toNat w, yField_toNat w, nField_toNat w, rfl,
    kkField_toNat w, kkField_eq_append w, addrField_toNat w, addrField_eq_append w, Machine.zextAddr_toNat _⟩⟩

end Sys2Proof
end

section
/-! PROOFS. Drawing (41_display.md): when DRW draws, which pixels a draw toggles, and VF as the collision flag. -/

namespace Sys2Proof.Machine

open Sys2Proof.Safety

/-! ### What the sprite at I covers, and when it is drawn -/

/-- The cells a sprite covers are the targets the blit goes through (41 R134). -/
theorem covers_iff (s : State) (cx cy n c r : Nat) :
    Covers s cx cy n c r ↔ (c, r) ∈ spriteCells s.cfg.edge cx cy (s.readBytes s.i.toNat n) := by
  rw [mem_spriteCells]
  constructor
  · rintro ⟨j, b, hj, hb, ht, hbit⟩
    exact ⟨j, b, _, by simp [State.readBytes, hj], hb, hbit, ht⟩
  · rintro ⟨j, b, v, hv, hb, hbit, ht⟩
    obtain ⟨hj, rfl⟩ := List.getElem?_eq_some_iff.1 hv
    exact ⟨j, b, by simpa using hj, hb, ht, by simpa using hbit⟩

theorem edgeViolation_of_drawFits {s : State} {cx cy n : Nat} (h : DrawFits s cx cy n) :
    edgeViolation s.cfg.edge cx cy n = false := by
  obtain ⟨-, hedge⟩ := h
  rw [Bool.eq_false_iff, Ne, edgeViolation_eq_true]
  rintro ⟨hf, hn, hout⟩
  have := hedge hf
  omega

/-- Where the sprite fits, DRW raises nothing and draws. -/
theorem exec_drw_of_drawFits {x y n : Nibble} {s : State} (h : DrawFits s (s.getV x).toNat (s.getV y).toNat n.toNat) :
    exec (.drw x y n) s = .next (s.draw (s.getV x).toNat (s.getV y).toNat (s.readBytes s.i.toNat n.toNat)) := by
  rcases execDrw_cases x y n s with ⟨hn, hmem, -⟩ | ⟨-, he, -⟩ | ⟨-, -, e⟩
  · obtain ⟨hm, -⟩ := h
    omega
  · rw [edgeViolation_of_drawFits h] at he
    cases he
  · exact e

/-! ### What a draw that fits does -/

section Draw
variable {s : State} {cx cy : Nat} {rows : List Byte}

theorem State.draw_keepsAllBut (s : State) (cx cy : Nat) (rows : List Byte) :
    KeepsAllBut [.regs, .screen, .events] s (s.draw cx cy rows) := by
  intro p hp
  cases p with
  | regs | screen | events => simp at hp
  | memory => exact fun _ => rfl
  | inputs => exact ⟨rfl, rfl⟩
  | index | pc | stack | delay | sound | mode | last | config => exact rfl

theorem State.draw_getV_vf (s : State) (cx cy : Nat) (rows : List Byte) :
    (s.draw cx cy rows).getV 0xF = if (blitSprite s.cfg.edge cx cy rows s.fb).collision then 1 else 0 :=
  State.getV_setV_self _ _ _

variable (hl : rows.length ≤ 15) (he : edgeViolation s.cfg.edge cx cy rows.length = false)
include hl he

/-- A draw toggles the sprite's cells and no other pixel (41 R134). -/
theorem State.draw_pixel (c r : Nat) :
    (s.draw cx cy rows).pixel c r = (s.pixel c r ^^ decide ((c, r) ∈ spriteCells s.cfg.edge cx cy rows)) := by
  obtain ⟨hpix, -, -⟩ := blitSprite_spec s.cfg.edge cx cy rows s.fb hl he
  exact hpix c r

theorem State.draw_pixel_ne_iff (c r : Nat) :
    (s.draw cx cy rows).pixel c r ≠ s.pixel c r ↔ (c, r) ∈ spriteCells s.cfg.edge cx cy rows := by
  rw [State.draw_pixel hl he]
  by_cases h : (c, r) ∈ spriteCells s.cfg.edge cx cy rows <;> simp [h]

/-- The collision flag says whether some pixel went from on to off (41 R135). -/
theorem blitSprite_collision_iff :
    (blitSprite s.cfg.edge cx cy rows s.fb).collision = true ↔
      ∃ c r, s.pixel c r = true ∧ (s.draw cx cy rows).pixel c r = false := by
  obtain ⟨-, hcol, -⟩ := blitSprite_spec s.cfg.edge cx cy rows s.fb hl he
  rw [hcol, List.any_eq_true]
  constructor
  · rintro ⟨⟨c, r⟩, hmem, hon⟩
    have hon : s.pixel c r = true := hon
    exact ⟨c, r, hon, by rw [State.draw_pixel hl he, hon]; simp [hmem]⟩
  · rintro ⟨c, r, hon, hoff⟩
    exact ⟨(c, r), (State.draw_pixel_ne_iff hl he c r).1 (by simp [hon, hoff]), hon⟩

theorem State.draw_vf_of_turnedOff (h : ∃ c r, s.pixel c r = true ∧ (s.draw cx cy rows).pixel c r = false) :
    (s.draw cx cy rows).getV 0xF = 1 := by
  rw [State.draw_getV_vf, if_pos ((blitSprite_collision_iff hl he).2 h)]

theorem State.draw_vf_of_staysOn (h : ∀ c r, s.pixel c r = true → (s.draw cx cy rows).pixel c r = true) :
    (s.draw cx cy rows).getV 0xF = 0 := by
  rw [State.draw_getV_vf, if_neg]
  intro hcol
  obtain ⟨c, r, hon, hoff⟩ := (blitSprite_collision_iff hl he).1 hcol
  rw [h c r hon] at hoff
  cases hoff

end Draw

/-- Settles O33, from the cells a draw toggles. -/
theorem drwTogglesCoveredCells : Obligations.DrwTogglesCoveredCells := by
  intro x y n s
  have hword : (encode (.drw x y n)).toNat = 0xD000 + (x.toNat * 256 + y.toNat * 16 + n.toNat) :=
    (word_xyn_toNat _ _ _ _).trans (by simp [Nat.add_assoc])
  refine ⟨encodedAs_rowOf hword, fun hfit => ⟨_, exec_drw_of_drawFits hfit, ?_⟩⟩
  have hl : (s.readBytes s.i.toNat n.toNat).length ≤ 15 := by
    have := n.isLt
    rw [State.readBytes_length]; omega
  have he : edgeViolation s.cfg.edge (s.getV x).toNat (s.getV y).toNat (s.readBytes s.i.toNat n.toNat).length = false := by
    rw [State.readBytes_length]; exact edgeViolation_of_drawFits hfit
  refine ⟨fun c r _ _ => (State.draw_pixel_ne_iff hl he c r).trans (covers_iff s _ _ _ c r).symm,
    State.draw_vf_of_turnedOff hl he, State.draw_vf_of_staysOn hl he, ?_, s.draw_keepsAllBut _ _ _⟩
  exact fun r hr => s.getV_draw_of_ne _ _ _ r (by simpa using hr)

end Sys2Proof.Machine
end

section
/-! PROOFS. The dispatch cycle (40_dispatch_cycle.md): which modes step, what a step adds around an instruction, and the three ways a
dispatch ends: it completes, it suspends, or it raises a fatal condition precisely. -/

namespace Sys2Proof.Machine

open Sys2Proof.Safety

/-! ### What surrounds an instruction, part by part -/

/-- The default advance touches PC alone (40 R105). -/
theorem State.advance_keepsAllBut (s : State) : KeepsAllBut [.pc] s s.advance := by
  intro p hp
  cases p with
  | pc => exact absurd (List.mem_singleton_self _) hp
  | _ => simp [Keeps]

/-- The tick and the retire of a completed dispatch touch the timers and the last word (40 R107, R108). -/
theorem State.tick_retire_keepsAllBut (s : State) (w : Word) : KeepsAllBut [.delay, .sound, .last] s (s.tick.retire w) := by
  intro p hp
  cases p with
  | delay | sound | last => simp at hp
  | _ => simp [Keeps]

/-- The taking of the step's input touches the inputs alone (40 R101). -/
theorem State.nextInput_keepsAllBut (s : State) : KeepsAllBut [.inputs] s s.nextInput := by
  intro p hp
  cases p with
  | inputs => exact absurd (List.mem_singleton_self _) hp
  | _ => simp [Keeps]

/-- A mode set, by a suspension or by a halt, touches nothing else. -/
theorem State.setMode_keepsAllBut (s : State) (m : Mode) : KeepsAllBut [.mode] s (s.setMode m) := by
  intro p hp
  cases p with
  | mode => exact absurd (List.mem_singleton_self _) hp
  | _ => simp [Keeps]

/-- A step whose dispatch only sets the mode, by a suspension or by a halt, keeps all but the mode, PC and the inputs (40 R109, R110). -/
theorem State.advance_setMode_nextInput_keepsAllBut (s : State) (m : Mode) :
    KeepsAllBut [.mode, .pc, .inputs] s (s.advance.setMode m).nextInput := by
  intro p hp
  cases p with
  | mode | pc | inputs => simp at hp
  | _ => simp [Keeps]

/-! ### When there is a step -/

theorem step_of_halted {s : State} {r : HaltReason} (h : s.mode = .halted r) : step s = .fault .halted := by
  unfold step; rw [h]

/-- A fetched word always has a next state, since every instruction has one (40 R106). -/
theorem runWord_next (w : Word) (s : State) : ∃ t, runWord w s = .next t := by
  unfold runWord
  cases decode w with
  | error e => exact ⟨_, rfl⟩
  | ok i =>
    obtain ⟨t, he, -⟩ := exec_effect i s.advance
    exact ⟨t.finish w, by simp only [he]⟩

theorem cycle_next (s : State) : ∃ t, cycle s = .next t := by
  unfold cycle
  split
  · exact ⟨_, rfl⟩
  · split
    · exact ⟨_, rfl⟩
    · exact runWord_next _ s

theorem step_next_of_not_halted {s : State} (h : ∀ r, s.mode ≠ .halted r) : ∃ t, step s = .next t := by
  unfold step
  split
  · next r hm => exact absurd hm (h r)
  · exact ⟨_, rfl⟩
  · obtain ⟨t, ht⟩ := cycle_next s
    exact ⟨t.nextInput, by simp only [ht]⟩

/-- A step that fetches `i` runs it on the advanced state, ends the dispatch, and takes the input (40 R104 to R110). -/
theorem step_of_fetches {s t : State} {i : Instr} (h : Fetches s i) (he : exec i s.advance = .next t) :
    step s = .next (t.finish (wordAtPc s)).nextInput := by
  obtain ⟨⟨hm, habort, hpc⟩, hd⟩ := h
  have hw : s.fetchWord = some (wordAtPc s) := (s.fetchWord_eq_some _).2 ⟨hpc, rfl⟩
  simp [step, cycle, runWord, hm, habort, hw, hd, he]

/-! ### How a dispatch ends -/

/-- An instruction keeps the mode, or does nothing but suspend, or does nothing but raise (40 R106). -/
theorem Effect.ending {i : Instr} {s t : State} (h : Effect i s t) :
    t.mode = s.mode ∨ (∃ x, i = .ldVxK x ∧ t = s.setMode (.waitKey x (encode i))) ∨
      ∃ kind info, t = s.raise kind (encode i) info := by
  cases h with
  | raised _ _ kind info => exact .inr (.inr ⟨kind, info, rfl⟩)
  | suspended x => exact .inr (.inl ⟨x, rfl, rfl⟩)
  | regs | popped => exact .inl rfl
  | _ => simp

/-- An instruction that halts a state not halted has done nothing but raise (60 R248). -/
theorem Effect.eq_raise {i : Instr} {s t : State} {r : HaltReason} (h : Effect i s t) (hs : ∀ r, s.mode ≠ .halted r)
    (ht : t.mode = .halted r) : ∃ kind info, t = s.raise kind (encode i) info := by
  rcases h.ending with hmode | ⟨x, -, rfl⟩ | hraise
  · exact absurd (hmode.symm.trans ht) (hs r)
  · cases ht
  · exact hraise

/-- The end of a dispatch leaves the mode (40 R107 to R110). -/
@[simp] theorem State.finish_mode (s : State) (w : Word) : (s.finish w).mode = s.mode := by
  by_cases h : s.mode = .running
  · rw [s.finish_running w h]; rfl
  · rw [s.finish_of_ne w h]

/-- A step from Running that ends in a fatal halt has advanced PC, raised with the word at PC, and taken its input: a word that does not
decode and an instruction that raises leave the same kind of state (60 R240, R248). -/
theorem step_fatal_eq_raise {s t : State} {rec : FatalRecord} (hm : s.mode = .running) (h : step s = .next t)
    (ht : t.mode = .halted (.fatal rec)) : ∃ kind info, t = (s.advance.raise kind (wordAtPc s) info).nextInput := by
  rcases step_next_cases h with ⟨-, -, rfl⟩ | ⟨-, -, -, rfl⟩ | ⟨w, e, -, -, hw, -, rfl⟩ | ⟨w, i, u, -, -, hw, hd, he, rfl⟩ |
    ⟨x, w, hwait, -⟩
  · cases ht
  · cases ht
  · obtain ⟨-, rfl⟩ := (s.fetchWord_eq_some w).1 hw
    exact ⟨.decodeError, .none, rfl⟩
  · obtain ⟨-, rfl⟩ := (s.fetchWord_eq_some w).1 hw
    have hu : u.mode = .halted (.fatal rec) := (u.finish_mode _).symm.trans ht
    obtain ⟨kind, info, rfl⟩ := (effect_of_exec he).eq_raise (by simp [hm]) hu
    rw [State.finish_of_ne _ _ (by simp), encode_of_decode hd]
    exact ⟨kind, info, rfl⟩
  · rw [hm] at hwait
    cases hwait

/-! ### The obligations -/

/-- Settles O13: every cycle and every wait step has a next state, and Halted answers the fault. -/
theorem stepsExactlyUnlessHalted : Obligations.StepsExactlyUnlessHalted := by
  intro s
  refine ⟨⟨?_, step_next_of_not_halted⟩, fun ⟨_, hr⟩ => step_of_halted hr, fun hf => ?_⟩
  · rintro ⟨t, ht⟩ r hr
    rw [step_of_halted hr] at ht
    cases ht
  · by_contra hrun
    obtain ⟨t, ht⟩ := step_next_of_not_halted (not_exists.1 hrun)
    rw [ht] at hf
    cases hf

/-- Settles O14, from the three ways an effect ends. -/
theorem everyInstructionAnswersANextState : Obligations.EveryInstructionAnswersANextState := by
  intro i s
  obtain ⟨t, he, heff⟩ := exec_effect i s
  refine ⟨t, he, ?_⟩
  rcases heff.ending with hmode | ⟨x, hi, rfl⟩ | ⟨kind, info, rfl⟩
  · exact .inl hmode
  · exact .inr (.inl ⟨x, hi, rfl⟩)
  · exact .inr (.inr ⟨kind, info, rfl⟩)

/-- Settles O15: the state of a fatal step is the advanced one with the record raised on it. -/
theorem fatalHaltIsPrecise : Obligations.FatalHaltIsPrecise := by
  intro s t rec hm h ht
  obtain ⟨kind, info, rfl⟩ := step_fatal_eq_raise hm h ht
  obtain rfl : ⟨kind, wordAtPc s, s.last, info⟩ = rec := HaltReason.fatal.inj (Mode.halted.inj ht)
  exact ⟨rfl, rfl, rfl, s.advance_setMode_nextInput_keepsAllBut _⟩

/-- Settles O7: `exec` answers a next state, and the step ends the dispatch on it. -/
theorem stepRunsTheDecodedInstruction : Obligations.StepRunsTheDecodedInstruction := by
  intro s i hm habort hpc hd
  obtain ⟨t, he, -⟩ := exec_effect i s.advance
  rw [he]
  exact step_of_fetches ⟨⟨hm, habort, hpc⟩, hd⟩ he

/-- Settles O8, from the frame of each of the operations. -/
theorem whatAStepAddsAroundExec : Obligations.WhatAStepAddsAroundExec := by
  intro s w
  refine ⟨⟨rfl, s.advance_keepsAllBut⟩, fun hm => ?_, s.finish_of_ne w, rfl, rfl, s.nextInput_keepsAllBut⟩
  rw [s.finish_running w hm]
  exact ⟨tickDown_toNat s.dt, tickDown_toNat s.st, rfl, s.tick_retire_keepsAllBut w⟩

/-- Settles O55: the suspension only sets the mode, so the end of the dispatch changes nothing (40 R110). -/
theorem keyWaitSuspends : Obligations.KeyWaitSuspends := by
  intro x s
  have hword : (encode (.ldVxK x)).toNat = 0xF00A + x.toNat * 256 :=
    (word_xkk_toNat _ _ _).trans (by simp; omega)
  refine ⟨encodedAs_rowOf hword, ⟨_, rfl, rfl, s.setMode_keepsAllBut _⟩, fun hf => ?_⟩
  have hw : encode (.ldVxK x) = wordAtPc s := encode_of_decode hf.2
  have hstep := step_of_fetches hf rfl
  rw [State.finish_of_ne _ _ (by simp), hw] at hstep
  exact ⟨_, hstep, rfl, rfl, s.advance_setMode_nextInput_keepsAllBut _⟩

end Sys2Proof.Machine
end

section
/-! PROOFS. The Bit Sequencer (41_display.md R131): its first `n` bits, read most-significant first, are the byte without its low `8 - n` bits. -/

namespace Sys2Proof.Machine

/-- A bit sequence read most-significant first as a binary number (41 R131). -/
def valueMsb (bits : List Bool) : Nat := bits.foldl (fun n b => 2 * n + b.toNat) 0

theorem valueMsb_concat (bits : List Bool) (b : Bool) : valueMsb (bits ++ [b]) = 2 * valueMsb bits + b.toNat :=
  List.foldl_concat ..

@[simp] theorem bitsMsb_length (v : Byte) : (bitsMsb v).length = 8 := by simp [bitsMsb]

theorem bitsMsb_getElem?_eq_spriteBit (v : Byte) {k : Nat} (hk : k < 8) : (bitsMsb v)[k]? = some (spriteBit v k) := by
  simp [bitsMsb, spriteBit, hk]

theorem spriteBit_toNat (v : Byte) (k : Nat) : (spriteBit v k).toNat = v.toNat / 2 ^ (7 - k) % 2 :=
  Nat.toNat_testBit ..

theorem bitsLsb_eq_reverse (v : Byte) : bitsLsb v = (bitsMsb v).reverse := by
  apply List.ext_getElem
  · simp [bitsLsb]
  · intro k hk _
    have hk8 : k < 8 := by simpa [bitsLsb] using hk
    have hflip : 7 - (7 - k) = k := by omega
    simp [bitsLsb, bitsMsb, hflip]

/-- One more bit doubles what is read so far and adds the bit. -/
theorem valueMsb_take_bitsMsb (v : Byte) (n : Nat) (hn : n ≤ 8) :
    valueMsb ((bitsMsb v).take n) = v.toNat / 2 ^ (8 - n) := by
  induction n with
  | zero => exact (Nat.div_eq_of_lt v.isLt).symm
  | succ n ih =>
    have hpow : 2 ^ (8 - n) = 2 ^ (7 - n) * 2 := by
      rw [← Nat.pow_succ]; congr 1; omega
    rw [List.take_add_one, bitsMsb_getElem?_eq_spriteBit v hn, Option.toList_some, valueMsb_concat, ih (by omega), spriteBit_toNat,
      hpow, ← Nat.div_div_eq_div_mul, Nat.div_add_mod, Nat.add_comm n 1, ← Nat.sub_sub]

theorem valueMsb_bitsMsb (v : Byte) : valueMsb (bitsMsb v) = v.toNat := by
  simpa [List.take_of_length_le] using valueMsb_take_bitsMsb v 8 le_rfl

/-- Settles O31, from the value of the first bits and the bit at an offset. -/
theorem bitSequencerReadsBackTheByte : Obligations.BitSequencerReadsBackTheByte :=
  fun v => ⟨bitsMsb_length v, valueMsb_bitsMsb v, bitsLsb_eq_reverse v,
    fun k hk => ⟨bitsMsb_getElem?_eq_spriteBit v hk, spriteBit_toNat v k⟩⟩

end Sys2Proof.Machine
end

section
/-! PROOFS. Control flow (42_control_flow.md): the return and the call it comes back from, the jumps, and the skips on registers and
immediates. -/

namespace Sys2Proof

/-! ### The words of two formats, the operands apart -/

theorem word_xkk_toNat_operands (op x : Nibble) (kk : Byte) :
    (op ++ x ++ kk : Word).toNat = op.toNat * 4096 + (x.toNat * 256 + kk.toNat) :=
  (word_xkk_toNat op x kk).trans (Nat.add_assoc _ _ _)

/-- A word of format `xyf` whose function nibble is 0. -/
theorem word_xy0_toNat_operands (op x y : Nibble) :
    (op ++ x ++ y ++ 0x0#4 : Word).toNat = op.toNat * 4096 + (x.toNat * 256 + y.toNat * 16) :=
  (word_xyn_toNat op x y 0x0).trans (by simp [Nat.add_assoc])

namespace Machine

open Sys2Proof.Safety

/-! ### What is left unchanged by the writes of PC and by a pop -/

theorem State.setPc_keepsAllBut (s : State) (a : Word) : KeepsAllBut [.pc] s (s.setPc a) := by
  intro p hp
  cases p with
  | pc => exact absurd (List.mem_singleton_self _) hp
  | _ => simp [Keeps]

/-- A skip, taken or not, touches PC alone (42 R158). -/
theorem State.skipIf_keepsAllBut (s : State) (c : Bool) : KeepsAllBut [.pc] s (s.skipIf c) :=
  s.skipIf_eq c ▸ s.setPc_keepsAllBut _

/-- The stack replaced and PC overwritten, as a return does (42 R150). -/
theorem State.setStack_setPc_keepsAllBut (s : State) (rest : List Word) (a : Word) :
    KeepsAllBut [.pc, .stack] s (({ s with stack := rest } : State).setPc a) := by
  intro p hp
  cases p with
  | pc | stack => simp at hp
  | regs | memory => exact fun _ => rfl
  | screen => exact fun _ _ => rfl
  | inputs => exact ⟨rfl, rfl⟩
  | index | delay | sound | mode | last | config | events => exact rfl

/-! ### The return and the call, each where its stack allows one outcome -/

section Stack
variable {s : State}

theorem exec_ret_of_nil (h : s.stack = []) : exec .ret s = .next (s.raise .stackUnderflow (encode .ret) .none) := by
  rcases execRet_cases s with ⟨-, e⟩ | ⟨a, rest, h', -⟩
  · exact e
  · cases h.symm.trans h'

theorem exec_ret_of_cons {a : Word} {rest : List Word} (h : s.stack = a :: rest) :
    exec .ret s = .next (({ s with stack := rest } : State).setPc a) := by
  rcases execRet_cases s with ⟨h', -⟩ | ⟨b, rest', h', e⟩
  · cases h.symm.trans h'
  · obtain ⟨rfl, rfl⟩ := List.cons.inj (h.symm.trans h')
    exact e

/-- A call below the limit pushes the PC it finds and jumps (42 R152). -/
theorem exec_call_of_room (addr : Addr) (h : ∀ d, s.cfg.stackLimit = some d → s.stack.length < d) :
    exec (.call addr) s = .next ((s.push s.pc).setPc (zextAddr addr)) := by
  rcases execCall_cases addr s with ⟨d, hd, hfull, -⟩ | ⟨-, e⟩
  · exact absurd (h d hd) (Nat.not_lt.2 hfull)
  · exact e

end Stack

/-! ### The jumps and the skips -/

/-- The target of JP V0 never wraps: 0xFFF + 0xFF is below 0x10000 (42 R153). -/
theorem zextAddr_add_zextByte_toNat (addr : Addr) (b : Byte) : (zextAddr addr + zextByte b).toNat = addr.toNat + b.toNat := by
  have := addr.isLt
  have := b.isLt
  rw [BitVec.toNat_add, zextAddr_toNat, zextByte_toNat]
  exact Nat.mod_eq_of_lt (by omega)

/-- What an instruction whose meaning is a skip does: PC goes on by one word exactly when the condition holds (42 R154 to R158). -/
theorem exec_skip {i : Instr} {s : State} {c : Bool} {p : Prop} [Decidable p] (he : exec i s = .next (s.skipIf c))
    (hc : c = true ↔ p) :
    ∃ t, exec i s = .next t ∧ t.pc = (if p then s.pc + 2 else s.pc) ∧ KeepsAllBut [.pc] s t :=
  ⟨_, he, by simp only [State.skipIf_pc, hc], s.skipIf_keepsAllBut c⟩

/-! ### The obligations -/

/-- Settles O40: the call leaves the PC it found on top of the stack it found, which is what the return pops. -/
theorem returnComesBackToTheCall : Obligations.ReturnComesBackToTheCall := by
  intro addr s t u hroom hcall hstack
  obtain rfl : (s.push s.pc).setPc (zextAddr addr) = t := Host.Outcome.next.inj ((exec_call_of_room addr hroom).symm.trans hcall)
  have hu : u.stack = s.pc :: s.stack := hstack
  exact ⟨_, exec_ret_of_cons hu, rfl, rfl⟩

/-- Settles O37, by the two stacks a return can find. -/
theorem retPopsOrUnderflows : Obligations.RetPopsOrUnderflows :=
  ⟨encodedAs_rowOf rfl, fun s a rest h => ⟨_, exec_ret_of_cons h, rfl, rfl, s.setStack_setPc_keepsAllBut rest a⟩,
    fun s h => ⟨_, _, exec_ret_of_nil h, rfl, rfl, rfl, s.setMode_keepsAllBut _⟩⟩

/-- Settles O38, from the two targets on the naturals. -/
theorem jumpsSetPc : Obligations.JumpsSetPc := fun addr s =>
  ⟨⟨encodedAs_rowOf (word_nnn_toNat 0x1 addr), _, rfl, zextAddr_toNat addr, s.setPc_keepsAllBut _⟩,
    ⟨encodedAs_rowOf (word_nnn_toNat 0xB addr), _, rfl, zextAddr_add_zextByte_toNat addr _, s.setPc_keepsAllBut _⟩⟩

/-- Settles O41: each of the four is a skip, on its own condition. -/
theorem skipsOnRegistersAndImmediates : Obligations.SkipsOnRegistersAndImmediates := fun x y kk _ =>
  ⟨⟨encodedAs_rowOf (word_xkk_toNat_operands 0x3 x kk), exec_skip rfl beq_iff_eq⟩,
    ⟨encodedAs_rowOf (word_xkk_toNat_operands 0x4 x kk), exec_skip rfl bne_iff_ne⟩,
    ⟨encodedAs_rowOf (word_xy0_toNat_operands 0x5 x y), exec_skip rfl beq_iff_eq⟩,
    ⟨encodedAs_rowOf (word_xy0_toNat_operands 0x9 x y), exec_skip rfl bne_iff_ne⟩⟩

end Machine
end Sys2Proof
end

section
/-! PROOFS. The register and arithmetic family (43_alu.md): what a register write leaves unchanged, a result with a flag in each of the
two write orders, and the instructions that answer with these writes. -/

namespace Sys2Proof

/-- A word of format `xyf`, the operands apart. -/
theorem word_xyf_toNat_operands (op x y f : Nibble) :
    (op ++ x ++ y ++ f : Word).toNat = op.toNat * 4096 + f.toNat + (x.toNat * 256 + y.toNat * 16) := by
  rw [word_xyn_toNat]; omega

namespace Machine

open Sys2Proof.Safety

/-! ### What the register writes leave unchanged -/

/-- The frame of every register write: a state that differs in its registers alone keeps each part but these. -/
theorem keepsAllBut_regs_of_v (s : State) (v : Vector Byte 16) : KeepsAllBut [.regs] s { s with v := v } := by
  intro p hp
  cases p with
  | regs => exact absurd (List.mem_singleton_self _) hp
  | memory => exact fun _ => rfl
  | screen => exact fun _ _ => rfl
  | inputs => exact ⟨rfl, rfl⟩
  | index | pc | stack | delay | sound | mode | last | config | events => exact rfl

theorem State.setV_frame (s : State) (x : Nibble) (b : Byte) : KeepsRegsBut [x] s (s.setV x b) ∧ KeepsAllBut [.regs] s (s.setV x b) :=
  ⟨fun r hr => s.getV_setV_ne x r b (by simpa using hr), keepsAllBut_regs_of_v s _⟩

/-! ### A result and a flag, in the two write orders of D7 -/

section ResultAndFlag
variable {s : State} {x : Nibble} {r : Byte} {f : Bool}

/-- Where `x` is 15 the flag stays. -/
theorem State.getV_setResultThenFlag (q : Nibble) :
    (s.setResultThenFlag x r f).getV q = if q = 0xF then (if f then 0x01 else 0x00) else if q = x then r else s.getV q := by
  rw [State.setResultThenFlag, State.getV_setFlag, State.getV_setV]

/-- Where `x` is 15 the result stays. -/
theorem State.getV_setFlagThenResult (q : Nibble) :
    (s.setFlagThenResult x r f).getV q = if q = x then r else if q = 0xF then (if f then 0x01 else 0x00) else s.getV q := by
  rw [State.setFlagThenResult, State.getV_setV, State.getV_setFlag]

/-- An instruction that writes its result and then its flag: VF ends as the flag whatever `x` is (43 R181, D7). -/
theorem exec_resultThenFlag {i : Instr} {n : Nat} {p : Prop} [Decidable p] (he : exec i s = .next (s.setResultThenFlag x r f))
    (hr : r.toNat = n) (hf : f = true ↔ p) :
    ∃ t, exec i s = .next t ∧ (x ≠ 0xF → (t.getV x).toNat = n) ∧ t.getV 0xF = (if p then 1 else 0) ∧
      KeepsRegsBut [x, 0xF] s t ∧ KeepsAllBut [.regs] s t := by
  refine ⟨_, he, fun hx => ?_, ?_, fun q hq => ?_, keepsAllBut_regs_of_v s _⟩
  · rw [State.getV_setResultThenFlag, if_neg hx, if_pos rfl, hr]
  · simp only [State.getV_setResultThenFlag, hf, if_true]
  · obtain ⟨hqx, hqf⟩ : q ≠ x ∧ q ≠ 0xF := by simpa using hq
    rw [State.getV_setResultThenFlag, if_neg hqf, if_neg hqx]

/-- An instruction that writes its flag and then its result, and does not read `y`: Vx ends as the result whatever `x` is (43 R181, D7). -/
theorem exec_flagThenResult {i : Nibble → Instr} {n m : Nat} (y : Nibble) (he : ∀ y', exec (i y') s = .next (s.setFlagThenResult x r f))
    (hr : r.toNat = n) (hf : f.toNat = m) :
    ∃ t, exec (i y) s = .next t ∧ (t.getV x).toNat = n ∧ (x ≠ 0xF → (t.getV 0xF).toNat = m) ∧
      KeepsRegsBut [x, 0xF] s t ∧ KeepsAllBut [.regs] s t ∧ ∀ y', exec (i y') s = .next t := by
  refine ⟨_, he y, ?_, fun hx => ?_, fun q hq => ?_, keepsAllBut_regs_of_v s _, he⟩
  · rw [State.getV_setFlagThenResult, if_pos rfl, hr]
  · rw [State.getV_setFlagThenResult, if_neg hx.symm, if_pos rfl, ← hf]
    cases f <;> rfl
  · obtain ⟨hqx, hqf⟩ : q ≠ x ∧ q ≠ 0xF := by simpa using hq
    rw [State.getV_setFlagThenResult, if_neg hqx, if_neg hqf]

end ResultAndFlag

/-! ### The results and the flags on the naturals -/

theorem carryOf_eq_true (a b : Byte) : carryOf a b = true ↔ 256 ≤ a.toNat + b.toNat := decide_eq_true_iff

theorem noBorrow_eq_true (a b : Byte) : noBorrow a b = true ↔ b.toNat ≤ a.toNat := decide_eq_true_iff

theorem shiftedOut_toNat (a : Byte) : (shiftedOut a).toNat = a.toNat % 2 := by
  rw [shiftedOut, BitVec.getLsbD, Nat.toNat_testBit, pow_zero, Nat.div_one]

/-- A difference of bytes, the borrow added before the subtraction (43 R177). -/
theorem byte_sub_toNat (a b : Byte) : (a - b).toNat = (a.toNat + 256 - b.toNat) % 256 := by
  have := b.isLt
  rw [BitVec.toNat_sub]; omega

theorem byte_shiftRight_one_toNat (a : Byte) : (a >>> 1).toNat = a.toNat / 2 := by
  rw [BitVec.toNat_ushiftRight, Nat.shiftRight_one]

theorem byte_shiftLeft_one_toNat (a : Byte) : (a <<< 1).toNat = a.toNat * 2 % 256 := by
  rw [BitVec.toNat_shiftLeft, Nat.shiftLeft_eq, pow_one]

/-! ### The obligations -/

/-- Settles O42: each of the three writes its result to Vx and nothing else. -/
theorem loadsAndImmediateAdd : Obligations.LoadsAndImmediateAdd := fun x y kk s =>
  ⟨⟨encodedAs_rowOf (word_xkk_toNat_operands 0x6 x kk), _, rfl, s.getV_setV_self x _, s.setV_frame x _⟩,
    ⟨encodedAs_rowOf (word_xkk_toNat_operands 0x7 x kk), _, rfl, by rw [State.getV_setV_self, BitVec.toNat_add], s.setV_frame x _⟩,
    ⟨encodedAs_rowOf (word_xy0_toNat_operands 0x8 x y), _, rfl, s.getV_setV_self x _, s.setV_frame x _⟩⟩

/-- Settles O43: each of the three writes its result to Vx and nothing else. -/
theorem bitwiseOperationsWriteNoFlag : Obligations.BitwiseOperationsWriteNoFlag := fun x y s =>
  ⟨⟨encodedAs_rowOf (word_xyf_toNat_operands 0x8 x y 0x1), _, rfl,
      fun b => by rw [State.getV_setV_self, BitVec.getLsbD_or], s.setV_frame x _⟩,
    ⟨encodedAs_rowOf (word_xyf_toNat_operands 0x8 x y 0x2), _, rfl,
      fun b => by rw [State.getV_setV_self, BitVec.getLsbD_and], s.setV_frame x _⟩,
    ⟨encodedAs_rowOf (word_xyf_toNat_operands 0x8 x y 0x3), _, rfl,
      fun b => by rw [State.getV_setV_self, BitVec.getLsbD_xor], s.setV_frame x _⟩⟩

/-- Settles O44: each of the three writes its result and then its flag. -/
theorem addAndSubtractSetVf : Obligations.AddAndSubtractSetVf := fun x y _ =>
  ⟨⟨encodedAs_rowOf (word_xyf_toNat_operands 0x8 x y 0x4), exec_resultThenFlag rfl (BitVec.toNat_add _ _) (carryOf_eq_true _ _)⟩,
    ⟨encodedAs_rowOf (word_xyf_toNat_operands 0x8 x y 0x5), exec_resultThenFlag rfl (byte_sub_toNat _ _) (noBorrow_eq_true _ _)⟩,
    ⟨encodedAs_rowOf (word_xyf_toNat_operands 0x8 x y 0x7), exec_resultThenFlag rfl (byte_sub_toNat _ _) (noBorrow_eq_true _ _)⟩⟩

/-- Settles O45: each of the two writes its flag and then its result, and answers the same for every `y`. -/
theorem shiftsSetVfToBitZero : Obligations.ShiftsSetVfToBitZero := fun x y _ =>
  ⟨⟨encodedAs_rowOf (word_xyf_toNat_operands 0x8 x y 0x6),
      exec_flagThenResult y (fun _ => rfl) (byte_shiftRight_one_toNat _) (shiftedOut_toNat _)⟩,
    ⟨encodedAs_rowOf (word_xyf_toNat_operands 0x8 x y 0xE),
      exec_flagThenResult y (fun _ => rfl) (byte_shiftLeft_one_toNat _) (shiftedOut_toNat _)⟩⟩

end Machine
end Sys2Proof
end

section
/-! PROOFS. The address register and memory (44_index_memory.md): what the stores leave in memory, byte by byte and for the next fetch,
and what the loads and the index writes leave unchanged. -/

namespace Sys2Proof

/-- A word of format `xff`, the operand apart. -/
theorem word_xff_toNat_operand (op x : Nibble) (ff : Byte) :
    (op ++ x ++ ff : Word).toNat = op.toNat * 4096 + ff.toNat + x.toNat * 256 := by
  rw [word_xkk_toNat]; omega

namespace Machine

open Sys2Proof.Safety

/-! ### What a store and a write of I leave unchanged -/

theorem State.setI_keepsAllBut (s : State) (a : Word) : KeepsAllBut [.index] s (s.setI a) := by
  intro p hp
  cases p with
  | index => exact absurd (List.mem_singleton_self _) hp
  | _ => simp [Keeps]

theorem State.writeBytes_keepsAllBut (s : State) (a : Nat) (bs : List Byte) : KeepsAllBut [.memory] s (s.writeBytes a bs) := by
  obtain ⟨m, h⟩ := s.writeBytes_eq a bs
  exact h ▸ keepsAllBut_memory_of_mem s m

theorem State.writeBytes_keepsBytesOutside (s : State) (a : Nat) (bs : List Byte) (hm : a + bs.length ≤ memSize) :
    KeepsBytesOutside a bs.length s (s.writeBytes a bs) :=
  fun b hb => (s.readByte_writeBytes a b bs hm).trans (dif_neg (by omega))

/-- Memory is touched by the storing effect alone, inside the bytes that it stores (20 R55). -/
theorem Effect.keepsBytesOutside_storeWidth {i : Instr} {s t : State} (h : Effect i s t) :
    KeepsBytesOutside s.i.toNat (storeWidth i) s t := by
  cases h with
  | stored _ _ bs hl hm => exact hl ▸ s.writeBytes_keepsBytesOutside _ bs hm
  | regs | popped | drawn => exact fun _ _ => rfl
  | _ => simp [KeepsBytesOutside]

/-! ### A store of bytes from I upward -/

/-- `t` is `s` with `n` bytes, the `k`-th of them `f k`, stored from I upward, and nothing else changed. -/
structure StoredFromI (n : Nat) (f : Nat → Byte) (s t : State) : Prop where
  readByte (a : Nat) : t.readByte a = byteAfterStore s n f a
  keeps : KeepsAllBut [.memory] s t

section StoredFromI
variable {n : Nat} {f : Nat → Byte} {s t : State}

theorem StoredFromI.readByte_add (h : StoredFromI n f s t) {k : Nat} (hk : k < n) : t.readByte (s.i.toNat + k) = f k := by
  rw [h.readByte, byteAfterStore, if_pos (by omega), Nat.add_sub_cancel_left]

/-- A fetch after the store reads the stored bytes where it meets them (20 R66). -/
theorem StoredFromI.fetchWord (h : StoredFromI n f s t) (hpc : s.pc.toNat + 2 ≤ memSize) :
    t.fetchWord = some (wordAfterStore s n f) := by
  have hpc' : t.pc = s.pc := h.keeps .pc (by simp)
  rw [State.fetchWord_eq_some, hpc', h.readByte, h.readByte]
  exact ⟨hpc, rfl⟩

theorem State.storedFromI_writeBytes {bs : List Byte} (hl : bs.length = n) (hm : s.i.toNat + n ≤ memSize)
    (hf : ∀ k, k < n → bs[k]? = some (f k)) : StoredFromI n f s (s.writeBytes s.i.toNat bs) := by
  subst hl
  exact ⟨fun a => s.readByte_store bs f a hm hf, s.writeBytes_keepsAllBut _ bs⟩

end StoredFromI

/-! ### The three block transfers, in range -/

/-- The `k`-th decimal digit of a byte, hundreds first (44 R203). -/
def bcdDigit (b : Byte) (k : Nat) : Byte := BitVec.ofNat 8 (b.toNat / 10 ^ (2 - k) % 10)

theorem bcdDigit_toNat (b : Byte) (k : Nat) : (bcdDigit b k).toNat = b.toNat / 10 ^ (2 - k) % 10 := by
  rw [bcdDigit, BitVec.toNat_ofNat]; omega

theorem bcdDigits_getElem? (b : Byte) (k : Nat) (hk : k < 3) : (bcdDigits b)[k]? = some (bcdDigit b k) := by
  have := b.isLt
  have hdigits : bcdDigits b = [bcdDigit b 0, bcdDigit b 1, bcdDigit b 2] := by
    simp [bcdDigits, ← BitVec.toNat_inj, bcdDigit_toNat]; omega
  match k, hk with
  | 0, _ | 1, _ | 2, _ => simp [hdigits]

theorem blockBytes_getElem? (s : State) (x : Nibble) (k : Nat) (hk : k < x.toNat + 1) :
    (s.blockBytes x)[k]? = some (s.getV (BitVec.ofNat 4 k)) := by
  have := x.isLt
  have hmod : k % 16 = k := by omega
  simp [hk, State.getV, hmod]

section InRange
variable {x : Nibble} {s : State}

theorem exec_ldB_of_inRange (h : s.i.toNat + 2 < memSize) :
    ∃ t, exec (.ldB x) s = .next t ∧ StoredFromI 3 (bcdDigit (s.getV x)) s t := by
  rcases execLdB_cases x s with ⟨hout, -⟩ | ⟨hm, e⟩
  · omega
  · exact ⟨_, e, State.storedFromI_writeBytes rfl hm (bcdDigits_getElem? _)⟩

theorem exec_stRegs_of_inRange (h : s.i.toNat + x.toNat < memSize) :
    ∃ t, exec (.stRegs x) s = .next t ∧ StoredFromI (x.toNat + 1) (fun k => s.getV (BitVec.ofNat 4 k)) s t := by
  rcases execStRegs_cases x s with ⟨hout, -⟩ | ⟨hm, e⟩
  · omega
  · exact ⟨_, e, State.storedFromI_writeBytes (s.blockBytes_length x) hm (blockBytes_getElem? s x)⟩

theorem exec_ldRegs_of_inRange (h : s.i.toNat + x.toNat < memSize) : exec (.ldRegs x) s = .next (s.loadBlock x s.i.toNat) := by
  rcases execLdRegs_cases x s with ⟨hout, -⟩ | ⟨-, e⟩
  · omega
  · exact e

end InRange

/-! ### The obligations -/

/-- Settles O20, from the shapes of effect. -/
theorem memoryChangesOnlyInStoredBytes : Obligations.MemoryChangesOnlyInStoredBytes :=
  fun _ _ _ h => (effect_of_exec h).keepsBytesOutside_storeWidth

/-- Settles O53: both instructions store from I upward, and a fetch reads what such a store leaves. -/
theorem storedBytesAreFetchedNext : Obligations.StoredBytesAreFetchedNext := by
  intro x s hpc
  constructor
  · intro h
    obtain ⟨t, he, hst⟩ := exec_ldB_of_inRange (x := x) h
    exact ⟨t, he, hst.fetchWord hpc⟩
  · intro h
    obtain ⟨t, he, hst⟩ := exec_stRegs_of_inRange h
    exact ⟨t, he, hst.fetchWord hpc⟩

/-- Settles O47: each of the two writes I and nothing else. -/
theorem indexLoadAndAdd : Obligations.IndexLoadAndAdd := fun addr x s =>
  ⟨⟨encodedAs_rowOf (word_nnn_toNat 0xA addr), _, rfl, zextAddr_toNat addr, s.setI_keepsAllBut _⟩,
    ⟨encodedAs_rowOf (word_xff_toNat_operand 0xF x 0x1E), _, rfl,
      by rw [State.setI_i, BitVec.toNat_add, zextByte_toNat], s.setI_keepsAllBut _⟩⟩

/-- Settles O49: the bytes stored from I are the digits of Vx; a byte is below 1000, so the hundreds are its quotient by 100. -/
theorem bcdStoresThreeDigits : Obligations.BcdStoresThreeDigits := by
  intro x s
  refine ⟨encodedAs_rowOf (word_xff_toNat_operand 0xF x 0x33), fun h => ?_⟩
  obtain ⟨t, he, hst⟩ := exec_ldB_of_inRange (x := x) h
  have digit : ∀ k < 3, (t.readByte (s.i.toNat + k)).toNat = (s.getV x).toNat / 10 ^ (2 - k) % 10 := fun k hk => by
    rw [hst.readByte_add hk, bcdDigit_toNat]
  have hundreds : (s.getV x).toNat / 100 < 10 := by
    have := (s.getV x).isLt
    omega
  exact ⟨t, he, (digit 0 (by omega)).trans (Nat.mod_eq_of_lt hundreds), digit 1 (by omega),
    (digit 2 (by omega)).trans (by simp), memoryChangesOnlyInStoredBytes _ _ _ he, hst.keeps⟩

/-- Settles O50: the bytes stored from I are the registers, V0 first. -/
theorem blockStoreWritesRegisters : Obligations.BlockStoreWritesRegisters := by
  intro x s
  refine ⟨encodedAs_rowOf (word_xff_toNat_operand 0xF x 0x55), fun h => ?_⟩
  obtain ⟨t, he, hst⟩ := exec_stRegs_of_inRange h
  refine ⟨t, he, fun r hr => ?_, memoryChangesOnlyInStoredBytes _ _ _ he, hst.keeps⟩
  rw [hst.readByte_add (Nat.lt_succ_of_le (BitVec.le_def.1 hr)), BitVec.ofNat_toNat, BitVec.setWidth_eq]

/-- Settles O51, from the registers a block load writes and those it leaves. -/
theorem blockLoadReadsRegisters : Obligations.BlockLoadReadsRegisters := fun x s =>
  ⟨encodedAs_rowOf (word_xff_toNat_operand 0xF x 0x65), fun h => ⟨_, exec_ldRegs_of_inRange h,
    fun r hr => (s.getV_loadBlock x r _).trans (if_pos (BitVec.le_def.1 hr)),
    fun r hr => (s.getV_loadBlock x r _).trans (if_neg (Nat.not_le.2 (BitVec.lt_def.1 hr))),
    keepsAllBut_regs_of_v s _⟩⟩

end Machine
end Sys2Proof
end

section
/-! PROOFS. The keypad (45_keypad.md): the skips on the step's key, and the wait that nothing but a key or an abort ends. -/

namespace Sys2Proof.Machine

open Sys2Proof.Safety

/-! ### The skips on the key -/

section KeySkips
variable {s : State}

theorem State.keyIs_eq_true (b : Byte) : s.keyIs b = true ↔ ∃ k, s.input.key = some k ∧ b.toNat = k.toNat := by
  unfold State.keyIs
  cases s.input.key with
  | none => simp
  | some k => simp [BitVec.toNat_eq (x := b), zextKey_toNat]

theorem State.keyIsNot_eq_true (b : Byte) : s.keyIsNot b = true ↔ ∃ k, s.input.key = some k ∧ b.toNat ≠ k.toNat := by
  unfold State.keyIsNot
  cases s.input.key with
  | none => simp
  | some k => simp [BitVec.toNat_eq (x := b), zextKey_toNat]

/-- What an instruction does that skips when a key is there and meets `p`: without a key PC stays (45 R221, R222). -/
theorem exec_keySkip {i : Instr} {c : Bool} {p : Nibble → Prop} [DecidablePred p] (he : exec i s = .next (s.skipIf c))
    (hc : c = true ↔ ∃ k, s.input.key = some k ∧ p k) :
    ∃ t, exec i s = .next t ∧ KeepsAllBut [.pc] s t ∧ (s.input.key = none → t.pc = s.pc) ∧
      ∀ k, s.input.key = some k → t.pc = if p k then s.pc + 2 else s.pc := by
  refine ⟨_, he, s.skipIf_keepsAllBut c, fun hnone => ?_, fun k hk => ?_⟩
  · simp [hc, hnone]
  · simp [hc, hk]

end KeySkips

/-! ### The wait without a key -/

theorem keepsAllBut_refl (ps : List Part) (s : State) : KeepsAllBut ps s s := by
  intro p _
  cases p <;> simp [Keeps]

/-- Frames compose: what two states in a row keep is kept over both. -/
theorem keepsAllBut_trans {ps : List Part} {s t u : State} (hst : KeepsAllBut ps s t) (htu : KeepsAllBut ps t u) :
    KeepsAllBut ps s u := by
  intro p hp
  have h := hst p hp
  have h' := htu p hp
  cases p with
  | regs | memory => exact fun a => (h' a).trans (h a)
  | screen => exact fun c r => (h' c r).trans (h c r)
  | inputs => exact ⟨h'.1.trans h.1, h'.2.trans h.2⟩
  | index | pc | stack | delay | sound | mode | last | config | events => exact Eq.trans h' h

section Wait
variable {s : State} {x : Nibble} {w : Word}

theorem State.input_of_cons {e : StepInput} {es : List StepInput} (h : s.inputs = e :: es) : s.input = e := by
  rw [State.input, h]

theorem State.waitStep_of_no_key (habort : s.input.abort = false) (hkey : s.input.key = none) : s.waitStep x w = s := by
  rcases s.waitStep_cases x w with ⟨h, -⟩ | ⟨-, -, e⟩ | ⟨k, -, h, -⟩
  · cases habort.symm.trans h
  · exact e
  · cases hkey.symm.trans h

/-- A wait step with neither abort nor key only takes its input (45 R225). -/
theorem step_of_wait_without_key (hm : s.mode = .waitKey x w) (habort : s.input.abort = false) (hkey : s.input.key = none) :
    step s = .next s.nextInput := by
  simp only [step, hm, State.waitStep_of_no_key habort hkey]

/-- A run whose first step has a next state goes on from there. -/
theorem run_succ_of_step {n : Nat} {t : State} (h : step s = .next t) :
    Host.Core.run Sys2Proof.core (n + 1) s = Host.Core.run Sys2Proof.core n t := by
  have hcore : Sys2Proof.core.step s = .next t := h
  simp only [Host.Core.run, hcore]

/-- A run of wait steps whose inputs are listed, by induction on their number: each leaves the core waiting (45 R225). -/
theorem run_of_wait_without_key (n : Nat) (hm : s.mode = .waitKey x w) (hn : n ≤ s.inputs.length)
    (hin : ∀ e ∈ s.inputs.take n, e.abort = false ∧ e.key = none) :
    ∃ t, Host.Core.run Sys2Proof.core n s = .next t ∧ KeepsAllBut [.inputs] s t ∧ t.inputs = s.inputs.drop n := by
  induction n generalizing s with
  | zero => exact ⟨s, rfl, keepsAllBut_refl _ s, rfl⟩
  | succ n ih =>
    obtain ⟨e, es, hes⟩ := List.exists_cons_of_length_pos (Nat.zero_lt_of_lt hn)
    have htail : s.nextInput.inputs = es := by rw [State.nextInput_inputs, hes, List.tail_cons]
    rw [hes, List.length_cons] at hn
    rw [hes, List.take_succ_cons, List.forall_mem_cons, ← State.input_of_cons hes] at hin
    obtain ⟨⟨habort, hkey⟩, hrest⟩ := hin
    obtain ⟨t, hrun, hkeep, hinputs⟩ := ih (s := s.nextInput) hm (htail ▸ Nat.le_of_succ_le_succ hn) (htail ▸ hrest)
    exact ⟨t, (run_succ_of_step (step_of_wait_without_key hm habort hkey)).trans hrun,
      keepsAllBut_trans s.nextInput_keepsAllBut hkeep, by rw [hinputs, htail, hes, List.drop_succ_cons]⟩

end Wait

/-! ### The obligations -/

/-- Settles O57: one wait step only takes its input, and so does each of a run of them. -/
theorem waitWithoutKeyChangesNothing : Obligations.WaitWithoutKeyChangesNothing := fun s _ _ hm =>
  ⟨fun habort hkey => ⟨_, step_of_wait_without_key hm habort hkey, s.nextInput_keepsAllBut, rfl, rfl⟩,
    fun n => run_of_wait_without_key n hm⟩

/-- Settles O54: each of the two is a skip that needs a key, on its own condition. -/
theorem keySkipsNeedAKey : Obligations.KeySkipsNeedAKey := fun x _ =>
  ⟨⟨encodedAs_rowOf (word_xff_toNat_operand 0xE x 0x9E), exec_keySkip rfl (State.keyIs_eq_true _)⟩,
    ⟨encodedAs_rowOf (word_xff_toNat_operand 0xE x 0xA1), exec_keySkip rfl (State.keyIsNot_eq_true _)⟩⟩

end Sys2Proof.Machine
end

section
/-! PROOFS. The timers (46_timers.md): a cycle completes an instruction and ticks, or only leaves the mode Running, and what the three
timer instructions do before the tick. -/

namespace Sys2Proof.Machine

open Sys2Proof.Safety

/-! ### The two ways a cycle ends -/

/-- A step whose instruction keeps the mode Running ticks and retires on what the instruction answered (40 R107, R108). -/
theorem step_of_fetches_completed {s t : State} {i : Instr} (hf : Fetches s i) (he : exec i s.advance = .next t)
    (ht : t.mode = s.mode) : step s = .next (t.tick.retire (wordAtPc s)).nextInput := by
  have hstep := step_of_fetches hf he
  obtain ⟨⟨hm, -⟩, -⟩ := hf
  rwa [t.finish_running _ (ht.trans hm)] at hstep

/-- An instruction that leaves Running for another mode has only set that mode, by suspending or by raising (40 R109, R110). -/
theorem Effect.eq_setMode {i : Instr} {s t : State} (h : Effect i s t) (hs : s.mode = .running) (ht : t.mode ≠ .running) :
    t = s.setMode t.mode := by
  rcases h.ending with hmode | ⟨x, -, rfl⟩ | ⟨kind, info, rfl⟩
  · exact absurd (hmode.trans hs) ht
  · rfl
  · rfl

/-- A step from Running completes a fetched instruction, and then ticks and retires, or it only sets another mode, before or after the
default advance (40 R103 to R110). -/
theorem step_of_running_cases {s t : State} (hm : s.mode = .running) (h : step s = .next t) :
    (∃ i u, Fetches s i ∧ exec i s.advance = .next u ∧ u.mode = .running ∧ t = (u.tick.retire (wordAtPc s)).nextInput) ∨
    ∃ m, m ≠ .running ∧ (t = (s.setMode m).nextInput ∨ t = (s.advance.setMode m).nextInput) := by
  rcases step_next_cases h with ⟨-, -, rfl⟩ | ⟨-, -, -, rfl⟩ | ⟨w, e, -, -, -, -, rfl⟩ | ⟨w, i, u, -, habort, hw, hd, he, rfl⟩ |
    ⟨x, w, hwait, -⟩
  · exact .inr ⟨.halted _, nofun, .inl rfl⟩
  · exact .inr ⟨.halted _, nofun, .inl rfl⟩
  · exact .inr ⟨.halted _, nofun, .inr rfl⟩
  · obtain ⟨hpc, rfl⟩ := (s.fetchWord_eq_some w).1 hw
    by_cases hu : u.mode = .running
    · exact .inl ⟨i, u, ⟨⟨hm, habort, hpc⟩, hd⟩, he, hu, by rw [u.finish_running _ hu]; rfl⟩
    · have hset : u = s.advance.setMode u.mode := (effect_of_exec he).eq_setMode hm hu
      exact .inr ⟨u.mode, hu, .inr (by rw [u.finish_of_ne _ hu, ← hset])⟩
  · cases hm.symm.trans hwait

/-! ### What an instruction does to the timers before the tick -/

section BeforeTheTick
variable {i : Instr} {s t : State}

theorem exec_keeps_dt (h : exec i s = .next t) (hi : ∀ x, i ≠ .ldDtVx x) : t.dt = s.dt :=
  not_ne_iff.1 fun hne => not_exists.2 hi ((effect_of_exec h).dt_changes hne)

theorem exec_keeps_st (h : exec i s = .next t) (hi : ∀ x, i ≠ .ldStVx x) : t.st = s.st :=
  not_ne_iff.1 fun hne => not_exists.2 hi ((effect_of_exec h).st_changes hne)

theorem exec_ldDtVx_dt {x : Nibble} (h : exec (.ldDtVx x) s = .next t) : t.dt = s.getV x := by
  obtain rfl : s.setDt (s.getV x) = t := Host.Outcome.next.inj h
  exact s.setDt_dt _

theorem exec_ldStVx_st {x : Nibble} (h : exec (.ldStVx x) s = .next t) : t.st = s.getV x := by
  obtain rfl : s.setSt (s.getV x) = t := Host.Outcome.next.inj h
  exact s.setSt_st _

end BeforeTheTick

theorem State.setDt_keepsAllBut (s : State) (b : Byte) : KeepsAllBut [.delay] s (s.setDt b) := by
  intro p hp
  cases p with
  | delay => exact absurd (List.mem_singleton_self _) hp
  | _ => simp [Keeps]

theorem State.setSt_keepsAllBut (s : State) (b : Byte) : KeepsAllBut [.sound] s (s.setSt b) := by
  intro p hp
  cases p with
  | sound => exact absurd (List.mem_singleton_self _) hp
  | _ => simp [Keeps]

/-! ### The obligations -/

/-- Settles O9: a completed cycle ticks what its instruction left in the timers, and any other only sets the mode. -/
theorem timersTickOncePerCompletedInstruction : Obligations.TimersTickOncePerCompletedInstruction := by
  intro s t hm h
  rcases step_of_running_cases hm h with ⟨i, u, hf, he, hu, rfl⟩ | ⟨m, hne, rfl | rfl⟩
  · have hdt : Ticked u.dt (tickDown u.dt) := tickDown_toNat u.dt
    have hst : Ticked u.st (tickDown u.st) := tickDown_toNat u.st
    refine ⟨fun _ => ⟨i, hf, rfl, ?_, fun hi => exec_keeps_dt he hi ▸ hdt, ?_, fun hi => exec_keeps_st he hi ▸ hst⟩,
      fun ht => absurd hu ht⟩
    · rintro x rfl
      exact exec_ldDtVx_dt he ▸ hdt
    · rintro x rfl
      exact exec_ldStVx_st he ▸ hst
  · exact ⟨fun ht => absurd ht hne, fun _ => ⟨rfl, rfl, rfl⟩⟩
  · exact ⟨fun ht => absurd ht hne, fun _ => ⟨rfl, rfl, rfl⟩⟩

/-- Settles O58: the instruction writes the DT it finds to Vx, and the tick that follows keeps the registers. -/
theorem readDelayTimerBeforeTheTick : Obligations.ReadDelayTimerBeforeTheTick := fun x s =>
  ⟨encodedAs_rowOf (word_xff_toNat_operand 0xF x 0x07), ⟨_, rfl, s.getV_setV_self x _, s.setV_frame x _⟩,
    fun hf => ⟨_, step_of_fetches_completed hf rfl rfl, s.advance.getV_setV_self x _, tickDown_toNat s.dt⟩⟩

/-- Settles O59: each instruction sets its own timer to Vx, and the tick that follows takes both timers one down. -/
theorem timersSetThenTicked : Obligations.TimersSetThenTicked := fun x s =>
  ⟨⟨encodedAs_rowOf (word_xff_toNat_operand 0xF x 0x15), ⟨_, rfl, rfl, s.setDt_keepsAllBut _⟩,
      fun hf => ⟨_, step_of_fetches_completed hf rfl rfl, tickDown_toNat (s.getV x), tickDown_toNat s.st⟩⟩,
    ⟨encodedAs_rowOf (word_xff_toNat_operand 0xF x 0x18), ⟨_, rfl, rfl, s.setSt_keepsAllBut _⟩,
      fun hf => ⟨_, step_of_fetches_completed hf rfl rfl, tickDown_toNat (s.getV x), tickDown_toNat s.dt⟩⟩⟩

end Sys2Proof.Machine
end

section
/-! PROOFS. Exceptions, the display stream and the outputs (60_exceptions.md): which conditions are fatal, what the display events show a
renderer, and the outputs as functions of the state. -/

namespace Sys2Proof.Machine

open Sys2Proof.Safety

/-! ### A renderer that follows the events (60 R262 to R264) -/

section Renderer
variable {i : Instr} {s t : State}

theorem rendered_append (es es' : List DisplayEvent) : rendered (es ++ es') = es'.foldl renderEvent (rendered es) := List.foldl_append

/-- The reports of a blit rebuild its screen: each toggled cell is reported with the value that is put there (41 R137). -/
theorem foldl_renderEvent_toggleCells (f : Screen) (ts : List (Nat × Nat)) (bl : Blit) (h : bl.changed.foldl renderEvent f = bl.screen) :
    (ts.foldl (fun b u => toggleCell u b) bl).changed.foldl renderEvent f = (ts.foldl (fun b u => toggleCell u b) bl).screen := by
  induction ts generalizing bl with
  | nil => exact h
  | cons u ts ih =>
    apply ih
    exact List.foldl_append.trans (by rw [h]; rfl)

theorem foldl_renderEvent_blitSprite (p : EdgePolicy) (cx cy : Nat) (rows : List Byte) (f : Screen) :
    (blitSprite p cx cy rows f).changed.foldl renderEvent f = (blitSprite p cx cy rows f).screen := by
  rw [blitSprite, plotRows_eq]
  exact foldl_renderEvent_toggleCells f _ _ rfl

/-- The flush at the end of a draw's events puts no cell (60 R264). -/
theorem foldl_renderEvent_drawEvents (f : Screen) (changed : List DisplayEvent) :
    (drawEvents changed).foldl renderEvent f = changed.foldl renderEvent f := by
  unfold drawEvents
  split
  · next h => rw [h]
  · exact List.foldl_append

theorem State.draw_rendererAgrees (cx cy : Nat) (rows : List Byte) (h : RendererAgrees s) : RendererAgrees (s.draw cx cy rows) := by
  have h : rendered s.events = s.fb := h
  rw [State.draw_eq, RendererAgrees, rendered_append, h, foldl_renderEvent_drawEvents]
  exact foldl_renderEvent_blitSprite _ _ _ _ _

/-- The screen and the events go together: a clear and a draw report what they do, and no other effect touches either. -/
theorem Effect.rendererAgrees (he : Effect i s t) (h : RendererAgrees s) : RendererAgrees t := by
  cases he with
  | cleared => exact rendered_append s.events [.clear]
  | drawn => exact State.draw_rendererAgrees _ _ _ h
  | regs | popped => exact h
  | _ => simpa [RendererAgrees] using h

theorem State.finish_rendererAgrees (w : Word) (h : RendererAgrees s) : RendererAgrees (s.finish w) := by
  by_cases hm : s.mode = .running
  · rw [s.finish_running w hm]; exact h
  · rw [s.finish_of_ne w hm]; exact h

theorem State.waitStep_rendererAgrees (x : Nibble) (w : Word) (h : RendererAgrees s) : RendererAgrees (s.waitStep x w) := by
  rcases s.waitStep_cases x w with ⟨-, e⟩ | ⟨-, -, e⟩ | ⟨k, -, -, e⟩ <;> rw [e] <;> exact h

end Renderer

/-- Settles O25: of all that a step does, only the instruction's effect can touch the screen or the events. -/
theorem stepKeepsRendererInAgreement : Obligations.StepKeepsRendererInAgreement := by
  intro s t h hstep
  rcases step_next_cases hstep with ⟨-, -, rfl⟩ | ⟨-, -, -, rfl⟩ | ⟨w, e, -, -, -, -, rfl⟩ | ⟨w, i, u, -, -, -, -, he, rfl⟩ |
    ⟨x, w, -, rfl⟩
  · exact h
  · exact h
  · exact h
  · have hu : RendererAgrees u := (effect_of_exec he).rendererAgrees h
    exact State.finish_rendererAgrees w hu
  · exact State.waitStep_rendererAgrees x w h

/-! ### The fatal conditions (60 R241 to R245) -/

theorem State.raise_record {s : State} {kind : FatalKind} {w : Word} {info : FatalInfo} {rec : FatalRecord}
    (h : (s.raise kind w info).mode = .halted (.fatal rec)) : rec.kind = kind ∧ rec.info = info := by
  cases h
  exact ⟨rfl, rfl⟩

/-- Settles O16: six instructions can raise, each as its own lemma of cases says; any other ends Running or waiting for a key. -/
theorem onlyTheNamedConditionsAreFatal : Obligations.OnlyTheNamedConditionsAreFatal := by
  intro i s t rec hm h ht
  have completed {u : State} (e : exec i s = .next u) (hu : u.mode = s.mode) : False := by
    cases e.symm.trans h
    cases hm.symm.trans (hu.symm.trans ht)
  have raised {kind w info} (e : exec i s = .next (s.raise kind w info)) : rec.kind = kind ∧ rec.info = info := by
    cases e.symm.trans h
    exact State.raise_record ht
  cases i
  case ret =>
    rcases execRet_cases s with ⟨hnil, e⟩ | ⟨a, rest, -, e⟩
    · exact .inl ⟨rfl, hnil, raised e⟩
    · exact (completed e rfl).elim
  case call addr =>
    rcases execCall_cases addr s with ⟨d, hd, hfull, e⟩ | ⟨-, e⟩
    · exact .inr (.inl ⟨addr, d, rfl, hd, hfull, raised e⟩)
    · exact (completed e rfl).elim
  case drw x y n =>
    rcases execDrw_cases x y n s with ⟨hn, hout, e⟩ | ⟨-, hedge, e⟩ | ⟨-, -, e⟩
    · exact .inr (.inr (.inl ⟨n.toNat, _, .inl ⟨x, y, by simp, n.isLt⟩, hout, hn, rfl, raised e⟩))
    · obtain ⟨hp, hn, hout⟩ := (edgeViolation_eq_true _ _ _ _).1 hedge
      exact .inr (.inr (.inr ⟨x, y, n, rfl, hp, hn, hout, raised e⟩))
    · exact (completed e rfl).elim
  case ldB x =>
    rcases execLdB_cases x s with ⟨hout, e⟩ | ⟨-, e⟩
    · exact .inr (.inr (.inl ⟨3, _, .inr (.inl ⟨x, rfl, rfl⟩), hout, by decide, rfl, raised e⟩))
    · exact (completed e (by simp)).elim
  case stRegs x =>
    rcases execStRegs_cases x s with ⟨hout, e⟩ | ⟨-, e⟩
    · exact .inr (.inr (.inl ⟨_, _, .inr (.inr ⟨x, .inl rfl, rfl⟩), hout, Nat.succ_pos _, rfl, raised e⟩))
    · exact (completed e (by simp)).elim
  case ldRegs x =>
    rcases execLdRegs_cases x s with ⟨hout, e⟩ | ⟨-, e⟩
    · exact .inr (.inr (.inl ⟨_, _, .inr (.inr ⟨x, .inr rfl, rfl⟩), hout, Nat.succ_pos _, rfl, raised e⟩))
    · exact (completed e rfl).elim
  case ldVxK => cases h; cases ht
  case seImm | sneImm | seReg | sneReg | skp | sknp => exact (completed rfl (s.skipIf_mode _)).elim
  all_goals exact (completed rfl rfl).elim

/-! ### The events of a draw, in loop order (41 R137) -/

theorem rowCells_map_range (p : EdgePolicy) (c r : Nat) (bit : Nat → Bool) (n : Nat) :
    rowCells p c r ((List.range n).map bit) = (List.range n).filterMap fun b => if bit b then spriteTarget p (c + b) r else none := by
  induction n generalizing c bit with
  | zero => rfl
  | succ n ih =>
    rw [List.range_succ_eq_map, List.map_cons, List.map_map, rowCells, ih, List.filterMap_cons, List.filterMap_map]
    cases bit 0 <;> cases spriteTarget p c r <;> simp [Nat.add_assoc, Nat.add_comm 1]

theorem spriteCells_map_range (p : EdgePolicy) (c r : Nat) (row : Nat → Byte) (n : Nat) :
    spriteCells p c r ((List.range n).map row) = (List.range n).flatMap fun j => rowCells p c (r + j) (bitsMsb (row j)) := by
  induction n generalizing r row with
  | zero => rfl
  | succ n ih =>
    rw [List.range_succ_eq_map, List.map_cons, List.map_map, spriteCells, ih, List.flatMap_cons, List.flatMap_map]
    simp [Nat.add_assoc, Nat.add_comm 1]

/-- The cells of the sprite at I: the present targets of its 1 bits, row by row and left to right (41 R130). -/
theorem spriteCells_readBytes (s : State) (cx cy n : Nat) :
    spriteCells s.cfg.edge cx cy (s.readBytes s.i.toNat n) =
      (List.range n).flatMap fun j => (List.range 8).filterMap fun b =>
        if spriteBit (s.readByte (s.i.toNat + j)) b then spriteTarget s.cfg.edge (cx + b) (cy + j) else none :=
  (spriteCells_map_range _ _ _ _ _).trans (List.flatMap_congr fun _ _ => rowCells_map_range _ _ _ _ 8)

/-- A blit reports each of its cells with the value the draw leaves there. -/
theorem blitSprite_changed {s : State} {cx cy : Nat} {rows : List Byte} (hl : rows.length ≤ 15)
    (he : edgeViolation s.cfg.edge cx cy rows.length = false) :
    (blitSprite s.cfg.edge cx cy rows s.fb).changed =
      (spriteCells s.cfg.edge cx cy rows).map fun p => .cell p.1 p.2 ((s.draw cx cy rows).pixel p.1 p.2) := by
  obtain ⟨-, -, hchanged⟩ := blitSprite_spec s.cfg.edge cx cy rows s.fb hl he
  refine hchanged.trans (List.map_congr_left fun p hp => ?_)
  rw [State.draw_pixel hl he, decide_eq_true hp, Bool.xor_true]
  rfl

/-- Settles O34: the reports of the blit, for the cells of the sprite in loop order. -/
theorem drwReportsChangedCellsThenFlush : Obligations.DrwReportsChangedCellsThenFlush := by
  intro x y n s t hfit h
  obtain rfl := Host.Outcome.next.inj ((exec_drw_of_drawFits hfit).symm.trans h)
  refine ⟨_, rfl, ?_⟩
  have hl : (s.readBytes s.i.toNat n.toNat).length ≤ 15 := by
    rw [State.readBytes_length]; exact Nat.le_of_lt_succ n.isLt
  have he : edgeViolation s.cfg.edge (s.getV x).toNat (s.getV y).toNat (s.readBytes s.i.toNat n.toNat).length = false := by
    rw [State.readBytes_length]; exact edgeViolation_of_drawFits hfit
  have hchanged := blitSprite_changed hl he
  rw [spriteCells_readBytes, List.map_flatMap] at hchanged
  simp only [List.map_filterMap, apply_ite (Option.map _), Option.map_none] at hchanged
  rw [← hchanged]
  rfl

/-! ### DecodeError, CLS and the outputs -/

/-- A step that fetches a word that does not decode raises on the advanced state (40 R105, 60 R241). -/
theorem step_of_undecoded {s : State} {e : Reject} (h : FetchesWord s) (hd : decode (wordAtPc s) = .error e) :
    step s = .next (s.advance.raise .decodeError (wordAtPc s) .none).nextInput := by
  obtain ⟨hm, habort, hpc⟩ := h
  have hw : s.fetchWord = some (wordAtPc s) := (s.fetchWord_eq_some _).2 ⟨hpc, rfl⟩
  simp [step, cycle, runWord, hm, habort, hw, hd]

/-- Settles O10: the raise only sets the mode of the advanced state. -/
theorem undecodedWordHalts : Obligations.UndecodedWordHalts := fun s _ hf hd =>
  ⟨_, step_of_undecoded hf hd, rfl, rfl, s.advance_setMode_nextInput_keepsAllBut _⟩

theorem State.setFb_emit_keepsAllBut (s : State) (f : Screen) (es : List DisplayEvent) :
    KeepsAllBut [.screen, .events] s ((s.setFb f).emit es) := by
  intro p hp
  cases p with
  | screen | events => simp at hp
  | _ => simp [Keeps]

/-- Settles O32: CLS replaces the screen by the blank one and reports the clear. -/
theorem clsClearsEveryPixel : Obligations.ClsClearsEveryPixel :=
  ⟨encodedAs_rowOf rfl, fun s => ⟨_, rfl, Screen.get_blank, rfl, s.setFb_emit_keepsAllBut _ _⟩⟩

section Status
variable (s : State)

theorem State.soundOn_eq_true : s.soundOn = true ↔ s.st ≠ 0 := bne_iff_ne

theorem State.status_eq_running : s.status = .running ↔ s.mode = .running := by
  unfold State.status
  cases s.mode <;> simp

theorem State.status_eq_waiting : s.status = .waiting ↔ ∃ x w, s.mode = .waitKey x w := by
  unfold State.status
  cases s.mode <;> simp

theorem State.status_eq_halted (r : HaltReason) (c : Nat) : s.status = .halted r c ↔ s.mode = .halted r ∧ c = r.exitCode := by
  unfold State.status
  cases s.mode with
  | halted r' =>
    rw [Status.halted.injEq, Mode.halted.injEq]
    exact and_congr_right fun hr => hr ▸ eq_comm
  | _ => simp

end Status

theorem FatalKind.exitCode_eq_one (k : FatalKind) : k.exitCode = 1 := by cases k <;> rfl

theorem HaltReason.exitCode_eq_one (r : HaltReason) : r.exitCode = 1 ↔ ∃ rec, r = .fatal rec := by
  cases r with
  | fatal rec => exact iff_of_true rec.kind.exitCode_eq_one ⟨rec, rfl⟩
  | _ => simp [HaltReason.exitCode]

theorem HaltReason.exitCode_le_one (r : HaltReason) : r.exitCode = 0 ∨ r.exitCode = 1 := by
  cases r with
  | fatal rec => exact .inr rec.kind.exitCode_eq_one
  | normal | aborted => exact .inl rfl

/-- Settles O60, output by output. -/
theorem outputsFollowTheState : Obligations.OutputsFollowTheState :=
  ⟨fun s => ⟨s.soundOn_eq_true, s.status_eq_running, s.status_eq_waiting, s.status_eq_halted⟩,
    HaltReason.exitCode_eq_one, HaltReason.exitCode_le_one, FatalKind.exitCode_eq_one, rfl⟩

end Sys2Proof.Machine
end

section
/-! PROOFS. Reset, the load and the hazards (70_reset_and_hazards.md), with what stands beside them: the invariants of memory, PC and the
stack, the inputs an instruction reads, the ends of a run before the fetch, the traps, the call, the second draw and the key that ends a
wait. -/

namespace Sys2Proof.Machine

open Sys2Proof.Safety

/-! ### The end of a dispatch and the wait step leave memory, PC, the stack and the parameters -/

@[simp] theorem State.finish_keeps_mem_pc_stack_cfg (s : State) (w : Word) :
    (s.finish w).mem = s.mem ∧ (s.finish w).pc = s.pc ∧ (s.finish w).stack = s.stack ∧ (s.finish w).cfg = s.cfg := by
  unfold State.finish
  split <;> exact ⟨rfl, rfl, rfl, rfl⟩

@[simp] theorem State.waitStep_keeps_mem_pc_stack_cfg (s : State) (x : Nibble) (w : Word) :
    (s.waitStep x w).mem = s.mem ∧ (s.waitStep x w).pc = s.pc ∧ (s.waitStep x w).stack = s.stack ∧ (s.waitStep x w).cfg = s.cfg := by
  rcases s.waitStep_cases x w with ⟨-, e⟩ | ⟨-, -, e⟩ | ⟨k, -, -, e⟩ <;> rw [e] <;> exact ⟨rfl, rfl, rfl, rfl⟩

/-! ### The canonical form of memory -/

/-- Memory is written by the storing effect alone, whose run of bytes keeps the form (20 R53, R55). -/
theorem Effect.memoryForm {i : Instr} {s t : State} (he : Effect i s t) (h : MemoryForm s) : MemoryForm t := by
  cases he with
  | stored _ _ bs => simpa [MemoryForm] using s.wf_writeBytes s.i.toNat bs h
  | regs | popped => exact h
  | _ => simpa [MemoryForm] using h

/-- Settles O23: of all that a step does, only the instruction's effect can touch memory. -/
theorem stepKeepsMemoryForm : Obligations.StepKeepsMemoryForm := by
  intro s t h hstep
  rcases step_next_cases hstep with ⟨-, -, rfl⟩ | ⟨-, -, -, rfl⟩ | ⟨w, e, -, -, -, -, rfl⟩ | ⟨w, i, u, -, -, -, -, he, rfl⟩ |
    ⟨x, w, -, rfl⟩
  · exact h
  · exact h
  · exact h
  · have hu : MemoryForm u := (effect_of_exec he).memoryForm h
    simpa [MemoryForm] using hu
  · simpa [MemoryForm] using h

/-! ### The range of PC and of the return addresses -/

section Bounds
variable {s t : State}

/-- The three bounds depend on PC, the stack and the parameters alone. -/
theorem pcAndStackBounds_congr (h : PcAndStackBounds s) (hpc : t.pc = s.pc) (hstack : t.stack = s.stack) (hcfg : t.cfg = s.cfg) :
    PcAndStackBounds t := by
  rwa [PcAndStackBounds, hpc, hstack, hcfg]

theorem pcAndStackBounds_setPc (h : PcAndStackBounds s) {a : Word} (ha : a.toNat ≤ 0x10FE) : PcAndStackBounds (s.setPc a) := by
  obtain ⟨-, hstack⟩ := h
  exact ⟨ha, hstack⟩

/-- One word further from at most 0x1000 does not wrap. -/
theorem add_two_toNat {a : Word} (h : a.toNat ≤ 0x1000) : (a + 2).toNat = a.toNat + 2 := by
  rw [BitVec.toNat_add]
  exact Nat.mod_eq_of_lt (Nat.lt_of_le_of_lt (Nat.add_le_add_right h 2) (by decide))

theorem pcAndStackBounds_skipIf (h : PcAndStackBounds s) (hpc : s.pc.toNat ≤ 0x1000) (c : Bool) : PcAndStackBounds (s.skipIf c) := by
  cases c with
  | false => exact h
  | true => exact pcAndStackBounds_setPc h (by rw [add_two_toNat hpc]; omega)

/-- A fetch leaves room for the advance: the advanced PC is at most 0x1000 (40 R104, R105). -/
theorem State.advance_pc_le {w : Word} (h : s.fetchWord = some w) : s.advance.pc.toNat ≤ 0x1000 := by
  obtain ⟨hpc, -⟩ := (s.fetchWord_eq_some w).1 h
  have hpc : s.pc.toNat + 2 ≤ 0x1000 := hpc
  rw [State.advance_pc, add_two_toNat (by omega)]
  exact hpc

theorem pcAndStackBounds_advance {w : Word} (h : PcAndStackBounds s) (hw : s.fetchWord = some w) : PcAndStackBounds s.advance :=
  pcAndStackBounds_setPc h (Nat.le_trans (State.advance_pc_le hw) (by decide))

/-- A return takes its PC from the stack, where it was in range, and leaves a shorter stack (42 R150). -/
theorem pcAndStackBounds_pop {a : Word} {rest : List Word} (h : PcAndStackBounds s) (hs : s.stack = a :: rest) :
    PcAndStackBounds (({ s with stack := rest } : State).setPc a) := by
  obtain ⟨-, hret, hlimit⟩ := h
  rw [hs] at hret hlimit
  obtain ⟨ha, hrest⟩ := List.forall_mem_cons.1 hret
  exact ⟨Nat.le_trans ha (by decide), hrest, fun d hd => Nat.le_of_succ_le (hlimit d hd)⟩

/-- A call below the limit pushes a PC that is a return address in range (42 R152). -/
theorem pcAndStackBounds_push (h : PcAndStackBounds s) (hpc : s.pc.toNat ≤ 0x1000)
    (hroom : ∀ d, s.cfg.stackLimit = some d → s.stack.length < d) : PcAndStackBounds (s.push s.pc) := by
  obtain ⟨hpc', hret, -⟩ := h
  exact ⟨hpc', List.forall_mem_cons.2 ⟨hpc, hret⟩, hroom⟩

theorem zextAddr_le (addr : Addr) : (zextAddr addr).toNat ≤ 0xFFF := by
  have := addr.isLt
  rw [zextAddr_toNat]; omega

/-- From an advanced PC each effect keeps the bounds; the farthest jump is 0xFFF + 0xFF (10 R23, 42 R153). -/
theorem Effect.pcAndStackBounds {i : Instr} (he : Effect i s t) (hpc : s.pc.toNat ≤ 0x1000) (h : PcAndStackBounds s) :
    PcAndStackBounds t := by
  cases he with
  | skipImm | skipReg | skipKey => exact pcAndStackBounds_skipIf h hpc _
  | jump addr => exact pcAndStackBounds_setPc h (Nat.le_trans (zextAddr_le addr) (by decide))
  | jumpV0 addr =>
    refine pcAndStackBounds_setPc h ?_
    have := addr.isLt
    have := (s.getV 0x0).isLt
    rw [zextAddr_add_zextByte_toNat]; omega
  | popped _ a rest hs => exact pcAndStackBounds_pop h hs
  | pushed addr _ hroom =>
    exact pcAndStackBounds_setPc (pcAndStackBounds_push h hpc hroom) (Nat.le_trans (zextAddr_le addr) (by decide))
  | regs => exact h
  | _ => exact pcAndStackBounds_congr h (by simp) (by simp) (by simp)

end Bounds

/-- Settles O24: a step that fetches advances PC to at most 0x1000, from where its effect keeps the bounds; no other step writes PC or
the stack. -/
theorem stepKeepsPcAndStackBounds : Obligations.StepKeepsPcAndStackBounds := by
  intro s t h hstep
  rcases step_next_cases hstep with ⟨-, -, rfl⟩ | ⟨-, -, -, rfl⟩ | ⟨w, e, -, -, hw, -, rfl⟩ | ⟨w, i, u, -, -, hw, -, he, rfl⟩ |
    ⟨x, w, -, rfl⟩
  · exact h
  · exact h
  · exact pcAndStackBounds_advance h hw
  · have hu : PcAndStackBounds u := (effect_of_exec he).pcAndStackBounds (State.advance_pc_le hw) (pcAndStackBounds_advance h hw)
    exact pcAndStackBounds_congr hu (by simp) (by simp) (by simp)
  · exact pcAndStackBounds_congr h (by simp) (by simp) (by simp)

/-! ### Reset and construction -/

/-- The reset state under given parameters, before an image is loaded (70 R280, log 4). -/
def resetWith (cfg : Config) : State := { State.reset with cfg := cfg }

theorem resetWith_readByte (cfg : Config) (a : Nat) : (resetWith cfg).readByte a = Memory.initial cfg.font a := rfl

theorem Memory.initial_of_lt (font : Vector Byte 80) {a : Nat} (h : a < fontSize) : Memory.initial font a = font[a] := dif_pos h

theorem Memory.initial_of_le (font : Vector Byte 80) {a : Nat} (h : fontSize ≤ a) : Memory.initial font a = 0 :=
  dif_neg (Nat.not_lt.2 h)

theorem resetWith_memoryForm (cfg : Config) : MemoryForm (resetWith cfg) := Memory.wf_nil cfg.font

theorem resetWith_pcAndStackBounds (cfg : Config) : PcAndStackBounds (resetWith cfg) :=
  ⟨(by decide : State.reset.pc.toNat ≤ 0x10FE), nofun, fun d _ => Nat.zero_le d⟩

theorem resetWith_rendererAgrees (cfg : Config) : RendererAgrees (resetWith cfg) := rfl

/-- Settles O26: reset is the reset state under the default parameters. -/
theorem resetMeetsEveryInvariant : Obligations.ResetMeetsEveryInvariant :=
  ⟨resetWith_memoryForm defaultConfig, resetWith_pcAndStackBounds defaultConfig, resetWith_rendererAgrees defaultConfig⟩

theorem State.reset_getV (x : Nibble) : State.reset.getV x = 0 := Vector.getElem_replicate _

/-- Settles O28, from the fields of `State.reset` and what an unlisted address reads as. -/
theorem resetValuesByDecision : Obligations.ResetValuesByDecision :=
  ⟨State.reset_getV, rfl, rfl, rfl, Screen.get_blank, fun _ => Memory.initial_of_le defaultFont,
    fun _ => Memory.initial_of_lt defaultFont, rfl, rfl⟩

section Construct
variable {cfg : Config} {p : Image}

theorem construct_of_too_long (h : maxProgram < p.length) : construct cfg p = .error .loadTooLarge := by
  have hbad : Image.wellFormed p = false := decide_eq_false (Nat.not_le.2 h)
  simp [construct, hbad]

theorem construct_of_fits (h : p.length ≤ maxProgram) : construct cfg p = .ok ((resetWith cfg).writeBytes programBase p) := by
  have hok : Image.wellFormed p = true := decide_eq_true h
  simp [construct, hok, resetWith]

/-- The load of an image changes memory and the parameters alone. -/
theorem load_keepsAllBut : KeepsAllBut [.memory, .config] State.reset ((resetWith cfg).writeBytes programBase p) := by
  obtain ⟨m, hm⟩ := (resetWith cfg).writeBytes_eq programBase p
  rw [hm]
  intro q hq
  cases q with
  | memory | config => simp at hq
  | regs => exact fun _ => rfl
  | screen => exact fun _ _ => rfl
  | inputs => exact ⟨rfl, rfl⟩
  | index | pc | stack | delay | sound | mode | last | events => exact rfl

/-- Inside the image a byte is the image's, outside it is the font's or zero (70 R281, R282, R284). -/
theorem readByte_load (h : p.length ≤ maxProgram) (a : Nat) :
    ((resetWith cfg).writeBytes programBase p).readByte a =
      if ha : programBase ≤ a ∧ a < programBase + p.length then p[a - programBase] else Memory.initial cfg.font a := by
  have hfits : programBase + p.length ≤ memSize := Nat.add_le_add_left h programBase
  exact (resetWith cfg).readByte_writeBytes programBase a p hfits

end Construct

/-- Settles O29: a fitting image is stored over the reset state under the given parameters, whose invariants the store keeps. -/
theorem constructionLoadsFontAndProgram : Obligations.ConstructionLoadsFontAndProgram := by
  intro cfg p
  refine ⟨fun hlong => ⟨construct_of_too_long hlong, by rw [construct_of_too_long hlong]; rfl⟩, fun hfits => ?_⟩
  have hok := construct_of_fits (cfg := cfg) hfits
  have program (k : Nat) (hk : k < p.length) : ((resetWith cfg).writeBytes programBase p).readByte (programBase + k) = p[k] := by
    simp [readByte_load hfits, hk]
  have outside (a : Nat) (ha : a < programBase ∨ programBase + p.length ≤ a) :
      ((resetWith cfg).writeBytes programBase p).readByte a = Memory.initial cfg.font a := by
    rw [readByte_load hfits, dif_neg (by omega)]
  refine ⟨_, hok, by rw [hok]; rfl, program, fun d j _ h _ => ?_, fun a ha hout => ?_, State.writeBytes_cfg _ _ _, load_keepsAllBut,
    ?_, ?_, ?_⟩
  · rw [outside _ (.inl (Nat.lt_trans h (by decide))), Memory.initial_of_lt cfg.font h]
  · rw [outside a hout, Memory.initial_of_le cfg.font ha]
  · simpa [MemoryForm] using (resetWith cfg).wf_writeBytes programBase p (resetWith_memoryForm cfg)
  · exact pcAndStackBounds_congr (resetWith_pcAndStackBounds cfg) (by simp) (by simp) (by simp)
  · simpa [RendererAgrees] using resetWith_rendererAgrees cfg

/-! ### The inputs of a step (40 R112) -/

/-- The state under other inputs. -/
def State.withInputs (s : State) (es : List StepInput) (n : Nat) : State := { s with inputs := es, inputNo := n }

section WithInputs
variable (s : State) (es : List StepInput) (n : Nat)

theorem State.skipIf_withInputs (c : Bool) : (s.withInputs es n).skipIf c = (s.skipIf c).withInputs es n := by
  cases c <;> rfl

theorem State.writeBytes_withInputs (a : Nat) (bs : List Byte) :
    (s.withInputs es n).writeBytes a bs = (s.writeBytes a bs).withInputs es n := by
  induction bs generalizing s a with
  | nil => rfl
  | cons b bs ih => exact ih (s.writeByte a b) (a + 1)

end WithInputs

theorem State.keyIs_congr {s t : State} (h : t.input.key = s.input.key) (b : Byte) : t.keyIs b = s.keyIs b := by
  unfold State.keyIs; rw [h]

theorem State.keyIsNot_congr {s t : State} (h : t.input.key = s.input.key) (b : Byte) : t.keyIsNot b = s.keyIsNot b := by
  unfold State.keyIsNot; rw [h]

/-! ### The instructions that can trap, each where one outcome is left -/

section Traps
variable {s : State}

theorem exec_call_of_full (addr : Addr) {d : Nat} (hd : s.cfg.stackLimit = some d) (hfull : d ≤ s.stack.length) :
    exec (.call addr) s = .next (s.raise .stackOverflow (encode (.call addr)) (.limit d)) := by
  rcases execCall_cases addr s with ⟨d', hd', -, e⟩ | ⟨hroom, -⟩
  · obtain rfl := Option.some.inj (hd'.symm.trans hd)
    exact e
  · exact absurd (hroom d hd) (Nat.not_lt.2 hfull)

theorem exec_drw_of_beyond (x y : Nibble) {n : Nibble} (hn : 0 < n.toNat) (h : memSize < s.i.toNat + n.toNat) :
    exec (.drw x y n) s = .next (s.raise .memoryOutOfBounds (encode (.drw x y n)) (.address (max s.i.toNat memSize))) := by
  rcases execDrw_cases x y n s with ⟨-, -, e⟩ | ⟨hm, -, -⟩ | ⟨hm, -, -⟩
  · exact e
  · omega
  · omega

theorem exec_drw_of_edgeViolation {x y n : Nibble} (hm : n.toNat = 0 ∨ s.i.toNat + n.toNat ≤ memSize)
    (he : edgeViolation s.cfg.edge (s.getV x).toNat (s.getV y).toNat n.toNat = true) :
    exec (.drw x y n) s = .next (s.raise .drawOutOfBounds (encode (.drw x y n)) (.sprite (s.getV x) (s.getV y) n)) := by
  rcases execDrw_cases x y n s with ⟨hn, hout, -⟩ | ⟨-, -, e⟩ | ⟨-, he', -⟩
  · omega
  · exact e
  · cases he.symm.trans he'

theorem drawFits_of_edgeViolation {cx cy n : Nat} (hm : n = 0 ∨ s.i.toNat + n ≤ memSize)
    (he : edgeViolation s.cfg.edge cx cy n = false) : DrawFits s cx cy n := by
  refine ⟨hm, fun hp => ?_⟩
  rw [Bool.eq_false_iff, Ne, edgeViolation_eq_true] at he
  by_contra hout
  exact he ⟨hp, by omega, by omega⟩

theorem exec_ldB_of_beyond (x : Nibble) (h : memSize < s.i.toNat + 3) :
    exec (.ldB x) s = .next (s.raise .memoryOutOfBounds (encode (.ldB x)) (.address (max s.i.toNat memSize))) := by
  rcases execLdB_cases x s with ⟨-, e⟩ | ⟨hm, -⟩
  · exact e
  · omega

theorem exec_ldB_of_fits (x : Nibble) (h : s.i.toNat + 3 ≤ memSize) :
    exec (.ldB x) s = .next (s.writeBytes s.i.toNat (bcdDigits (s.getV x))) := by
  rcases execLdB_cases x s with ⟨hout, -⟩ | ⟨-, e⟩
  · omega
  · exact e

theorem exec_stRegs_of_beyond {x : Nibble} (h : memSize < s.i.toNat + (x.toNat + 1)) :
    exec (.stRegs x) s = .next (s.raise .memoryOutOfBounds (encode (.stRegs x)) (.address (max s.i.toNat memSize))) := by
  rcases execStRegs_cases x s with ⟨-, e⟩ | ⟨hm, -⟩
  · exact e
  · omega

theorem exec_stRegs_of_fits {x : Nibble} (h : s.i.toNat + (x.toNat + 1) ≤ memSize) :
    exec (.stRegs x) s = .next (s.writeBytes s.i.toNat (s.blockBytes x)) := by
  rcases execStRegs_cases x s with ⟨hout, -⟩ | ⟨-, e⟩
  · omega
  · exact e

theorem exec_ldRegs_of_beyond {x : Nibble} (h : memSize < s.i.toNat + (x.toNat + 1)) :
    exec (.ldRegs x) s = .next (s.raise .memoryOutOfBounds (encode (.ldRegs x)) (.address (max s.i.toNat memSize))) := by
  rcases execLdRegs_cases x s with ⟨-, e⟩ | ⟨hm, -⟩
  · exact e
  · omega

end Traps

/-- What an instruction answers is answered under other inputs too, the inputs apart: the traps and the completions depend on the rest of
the state, and the key and the random byte agree where they are read (40 R112). -/
theorem exec_withInputs {i : Instr} {s t : State} (es : List StepInput) (n : Nat) (h : exec i s = .next t)
    (hkey : (∃ x, i = .skp x ∨ i = .sknp x) → (s.withInputs es n).input.key = s.input.key)
    (hrnd : (∃ x kk, i = .rnd x kk) → (s.withInputs es n).input.rnd = s.input.rnd) :
    exec i (s.withInputs es n) = .next (t.withInputs es n) := by
  cases i
  case skp x =>
    have hk := hkey ⟨x, .inl rfl⟩
    cases h
    rw [← State.keyIs_congr hk, ← State.skipIf_withInputs]; rfl
  case sknp x =>
    have hk := hkey ⟨x, .inr rfl⟩
    cases h
    rw [← State.keyIsNot_congr hk, ← State.skipIf_withInputs]; rfl
  case rnd x kk =>
    have hr := hrnd ⟨x, kk, rfl⟩
    cases h
    rw [← hr]; rfl
  case seImm | sneImm | seReg | sneReg =>
    cases h
    rw [← State.skipIf_withInputs]; rfl
  case ret =>
    rcases execRet_cases s with ⟨hs, e⟩ | ⟨a, rest, hs, e⟩ <;> cases e.symm.trans h
    · exact exec_ret_of_nil (s := s.withInputs es n) hs
    · exact exec_ret_of_cons (s := s.withInputs es n) hs
  case call addr =>
    rcases execCall_cases addr s with ⟨d, hd, hfull, e⟩ | ⟨hroom, e⟩ <;> cases e.symm.trans h
    · exact exec_call_of_full (s := s.withInputs es n) addr hd hfull
    · exact exec_call_of_room (s := s.withInputs es n) addr hroom
  case drw x y m =>
    rcases execDrw_cases x y m s with ⟨hn, hout, e⟩ | ⟨hm, he, e⟩ | ⟨hm, he, e⟩ <;> cases e.symm.trans h
    · exact exec_drw_of_beyond (s := s.withInputs es n) x y hn hout
    · exact exec_drw_of_edgeViolation (s := s.withInputs es n) hm he
    · exact exec_drw_of_drawFits (s := s.withInputs es n) (drawFits_of_edgeViolation hm he)
  case ldB x =>
    rcases execLdB_cases x s with ⟨hout, e⟩ | ⟨hm, e⟩ <;> cases e.symm.trans h
    · exact exec_ldB_of_beyond (s := s.withInputs es n) x hout
    · rw [← State.writeBytes_withInputs]
      exact exec_ldB_of_fits (s := s.withInputs es n) x hm
  case stRegs x =>
    rcases execStRegs_cases x s with ⟨hout, e⟩ | ⟨hm, e⟩ <;> cases e.symm.trans h
    · exact exec_stRegs_of_beyond (s := s.withInputs es n) hout
    · rw [← State.writeBytes_withInputs]
      exact exec_stRegs_of_fits (s := s.withInputs es n) hm
  case ldRegs x =>
    rcases execLdRegs_cases x s with ⟨hout, e⟩ | ⟨hm, e⟩ <;> cases e.symm.trans h
    · exact exec_ldRegs_of_beyond (s := s.withInputs es n) hout
    · exact exec_ldRegs_of_inRange (s := s.withInputs es n) hm
  all_goals cases h; rfl

/-- Settles O22: the second state is the first one under its own inputs. -/
theorem inputsAreReadOnlyByTheirInstructions : Obligations.InputsAreReadOnlyByTheirInstructions := by
  intro i s t u hu h hkey hrnd
  have hu : u = s.withInputs u.inputs u.inputNo := hu
  generalize u.inputs = es, u.inputNo = n at hu ⊢
  subst hu
  exact exec_withInputs es n h hkey hrnd

/-! ### The same sprite twice (41 R139) -/

/-- A cell toggled twice is as it was. -/
theorem State.draw_draw_pixel {s : State} {cx cy : Nat} {rows : List Byte} (hl : rows.length ≤ 15)
    (he : edgeViolation s.cfg.edge cx cy rows.length = false) (c r : Nat) :
    ((s.draw cx cy rows).draw cx cy rows).pixel c r = s.pixel c r := by
  rw [State.draw_pixel (s := s.draw cx cy rows) hl he, State.draw_pixel hl he, State.draw_cfg, Bool.xor_assoc, Bool.xor_self,
    Bool.xor_false]

/-- Settles O35: the first draw leaves I, memory, the anchor and the policy, so that the second one toggles the same cells back, and its
flag tells of the pixels that this turns off. -/
theorem drwTwiceRestoresTheScreen : Obligations.DrwTwiceRestoresTheScreen := by
  intro x y n s t hx hy hfit h
  obtain rfl := Host.Outcome.next.inj ((exec_drw_of_drawFits hfit).symm.trans h)
  have hl : (s.readBytes s.i.toNat n.toNat).length ≤ 15 := by
    rw [State.readBytes_length]; exact Nat.le_of_lt_succ n.isLt
  have he : edgeViolation s.cfg.edge (s.getV x).toNat (s.getV y).toNat (s.readBytes s.i.toNat n.toNat).length = false := by
    rw [State.readBytes_length]; exact edgeViolation_of_drawFits hfit
  generalize hcx : (s.getV x).toNat = cx, hcy : (s.getV y).toNat = cy, hrows : s.readBytes s.i.toNat n.toNat = rows at *
  have hx' : ((s.draw cx cy rows).getV x).toNat = cx := by rw [s.getV_draw_of_ne _ _ _ x hx, hcx]
  have hy' : ((s.draw cx cy rows).getV y).toNat = cy := by rw [s.getV_draw_of_ne _ _ _ y hy, hcy]
  have hrows' : (s.draw cx cy rows).readBytes (s.draw cx cy rows).i.toNat n.toNat = rows := hrows
  have hagain : exec (.drw x y n) (s.draw cx cy rows) = .next ((s.draw cx cy rows).draw cx cy rows) := by
    have hfit' : DrawFits (s.draw cx cy rows) cx cy n.toNat := hfit
    rw [exec_drw_of_drawFits (by rwa [hx', hy']), hx', hy', hrows']
  have hback := State.draw_draw_pixel hl he
  refine ⟨_, hagain, hback, fun ⟨c, r, hon, hoff⟩ => ?_, fun hstays => ?_⟩
  · exact State.draw_vf_of_turnedOff (s := s.draw cx cy rows) hl he ⟨c, r, hon, (hback c r).trans hoff⟩
  · exact State.draw_vf_of_staysOn (s := s.draw cx cy rows) hl he fun c r hon => (hback c r).trans (hstays c r hon)

/-! ### The ends of a run before the fetch (40 R103, R104) -/

/-- A step that only sets the mode keeps all but the mode and the inputs. -/
theorem State.setMode_nextInput_keepsAllBut (s : State) (m : Mode) : KeepsAllBut [.mode, .inputs] s (s.setMode m).nextInput := by
  intro p hp
  cases p with
  | mode | inputs => simp at hp
  | _ => simp [Keeps]

/-- Settles O11: without an abort and without a fetch the step only sets the mode. -/
theorem endOfMemoryHaltsNormally : Obligations.EndOfMemoryHaltsNormally := by
  intro s hm habort hpc
  have hw : s.fetchWord = none := s.fetchWord_eq_none.2 hpc
  have hstep : step s = .next (s.halt .normal).nextInput := by simp [step, cycle, hm, habort, hw]
  exact ⟨_, hstep, rfl, s.setMode_nextInput_keepsAllBut _⟩

/-- A step with an abort halts in either stepping mode (60 R252). -/
theorem step_of_abort {s : State} (hm : s.mode = .running ∨ ∃ x w, s.mode = .waitKey x w) (habort : s.input.abort = true) :
    step s = .next (s.halt .aborted).nextInput := by
  rcases hm with hm | ⟨x, w, hm⟩
  · simp [step, cycle, hm, habort]
  · simp [step, State.waitStep, hm, habort]

/-- Settles O12: in both modes the abort only sets the mode. -/
theorem abortHaltsBeforeAnythingElse : Obligations.AbortHaltsBeforeAnythingElse := fun s hm habort =>
  ⟨_, step_of_abort hm habort, rfl, s.setMode_nextInput_keepsAllBut _⟩

/-! ### The traps, the call and two writes -/

/-- An instruction that raises leaves the record and changes nothing but the mode (60 R240, R248). -/
theorem haltedBy_of_raise {i : Instr} {s : State} {kind : FatalKind} {info : FatalInfo}
    (he : exec i s = .next (s.raise kind (encode i) info)) :
    ∃ t, exec i s = .next t ∧ HaltedBy kind (encode i) info s t ∧ KeepsAllBut [.mode] s t :=
  ⟨_, he, rfl, s.setMode_keepsAllBut _⟩

/-- Settles O36: each trap of DRW is a raise, on memory before the edge. -/
theorem drwTraps : Obligations.DrwTraps := fun x y _ _ hn =>
  ⟨fun hout => haltedBy_of_raise (exec_drw_of_beyond x y hn hout),
    fun hm hp hout => haltedBy_of_raise (exec_drw_of_edgeViolation (.inr hm) ((edgeViolation_eq_true _ _ _ _).2 ⟨hp, hn, hout⟩))⟩

/-- Settles O52: each of the three raises where its last byte lies outside memory. -/
theorem blockTransfersTrapOutOfBounds : Obligations.BlockTransfersTrapOutOfBounds := fun x _ =>
  ⟨fun hout => haltedBy_of_raise (exec_ldB_of_beyond x (Nat.lt_succ_of_le hout)),
    fun hout => ⟨haltedBy_of_raise (exec_stRegs_of_beyond (Nat.lt_succ_of_le hout)),
      haltedBy_of_raise (exec_ldRegs_of_beyond (Nat.lt_succ_of_le hout))⟩⟩

theorem State.push_setPc_keepsAllBut (s : State) (a b : Word) : KeepsAllBut [.pc, .stack] s ((s.push a).setPc b) :=
  s.setStack_setPc_keepsAllBut (a :: s.stack) b

/-- Settles O39, by whether a set limit is reached. -/
theorem callPushesOrOverflows : Obligations.CallPushesOrOverflows := fun addr s =>
  ⟨encodedAs_rowOf (word_nnn_toNat 0x2 addr),
    fun hroom => ⟨_, exec_call_of_room addr hroom, zextAddr_toNat addr, rfl, s.push_setPc_keepsAllBut _ _⟩,
    fun _ hd hfull => haltedBy_of_raise (exec_call_of_full addr hd hfull)⟩

/-- Settles O46: RND writes the masked byte to Vx and nothing else. -/
theorem rndMasksTheStepsRandomByte : Obligations.RndMasksTheStepsRandomByte := fun x kk s =>
  ⟨encodedAs_rowOf (word_xkk_toNat_operands 0xC x kk), _, rfl, s.getV_setV_self x _, s.setV_frame x _⟩

/-- Settles O48: LD F writes the glyph's address to I and nothing else. -/
theorem glyphAddressIsFiveTimesTheDigit : Obligations.GlyphAddressIsFiveTimesTheDigit := fun x s =>
  ⟨encodedAs_rowOf (word_xff_toNat_operand 0xF x 0x29), _, rfl, glyphAddr_toNat _, s.setI_keepsAllBut _⟩

/-! ### The key that ends a wait (45 R224) -/

theorem step_of_wait_with_key {s : State} {x : Nibble} {w : Word} {k : Nibble} (hm : s.mode = .waitKey x w)
    (habort : s.input.abort = false) (hkey : s.input.key = some k) : step s = .next (s.takeKey x w k).nextInput := by
  simp [step, State.waitStep, hm, habort, hkey]

theorem State.takeKey_getV (s : State) (x : Nibble) (w : Word) (k r : Nibble) :
    (s.takeKey x w k).getV r = if r = x then zextKey k else s.getV r :=
  s.getV_setV x r (zextKey k)

theorem State.takeKey_nextInput_keepsAllBut (s : State) (x : Nibble) (w : Word) (k : Nibble) :
    KeepsAllBut [.regs, .mode, .last, .delay, .sound, .inputs] s (s.takeKey x w k).nextInput := by
  intro p hp
  cases p with
  | regs | mode | last | delay | sound | inputs => simp at hp
  | _ => simp [Keeps, State.takeKey]

/-- Settles O56: the step takes the key, and then its input. -/
theorem keyCompletesTheWait : Obligations.KeyCompletesTheWait := by
  intro s x w k hm habort hkey
  refine ⟨_, step_of_wait_with_key hm habort hkey, ?_, rfl, rfl, tickDown_toNat s.dt, tickDown_toNat s.st, fun r hr => ?_,
    s.takeKey_nextInput_keepsAllBut x w k⟩
  · rw [State.nextInput_getV, State.takeKey_getV, if_pos rfl, zextKey_toNat]
  · rw [State.nextInput_getV, State.takeKey_getV, if_neg (by simpa using hr)]

end Sys2Proof.Machine
end
